-- ==== Sys2Proof/Word.lean ====
section
/-! DEFINITION. The words of the decoder and the two small closed types its rules speak of
(spec/00_scope.md R7, R8, R11; spec/10_state.md R15; spec/30_encoding.md R49, R52). -/

namespace Sys2Proof

/-- The 4-bit rolling history, `prevA prevB curA curB` in bits 3 to 0 (10_state.md R17). -/
abbrev History := BitVec 4

/-- The 4-bit two's complement sub-step accumulator (10_state.md R15, R20). -/
abbrev SubStep := BitVec 4

/-- One pair of channel levels, channel A in the more significant bit (00_scope.md R11). -/
abbrev Sample := BitVec 2

/-- The 3-bit command word (30_encoding.md R49). -/
abbrev CmdWord := BitVec 3

/-- The two input channels (00_scope.md R12). -/
inductive Channel where
  | a
  | b
  deriving DecidableEq, Repr

/-- A table delta or an emitted step, a value in {-1, 0, +1} (20_memory.md R35, 40_sampling.md R56).
Three constructors and no fourth: the code `2'b10` never occurs (30_encoding.md R52, R54). -/
inductive Delta where
  | minusOne
  | zero
  | plusOne
  deriving DecidableEq, Repr

/-- The integer a delta or step stands for. -/
def Delta.toInt : Delta → Int
  | .minusOne => -1
  | .zero => 0
  | .plusOne => 1

end Sys2Proof
end

