-- ==== Sys2Proof/Config.lean ====
section
/-! DEFINITION. What an implementation fixes (spec/00_scope.md R6) and the free values: the construction
parameters that the spec leaves OPEN, the inputs the host and the environment present, and what the
registers hold when power comes up. An `opaque` constant has no body here, so no proof can use a value of it. -/

namespace Sys2Proof

/-- What an add that leaves the range of `position` does (10_state.md R23). -/
inductive OverflowMode where
  | wrap
  | fault
  deriving DecidableEq, Repr

/-- The implementation parameters of a decoder (00_scope.md R6). They stand in the state as data that no
step writes, so a statement about every state holds at every width (log 2). -/
structure Params where
  /-- `POS_WIDTH`, OPEN, at least 2 -/
  posWidth : Nat
  /-- `PIN_ID_WIDTH`, OPEN, at least 1 and at most `POS_WIDTH` -/
  pinIdWidth : Nat
  /-- `POS_OVERFLOW` -/
  posOverflow : OverflowMode
  deriving DecidableEq, Repr

/-- DESIGN CHOICE (log 2): how far `POS_WIDTH` lies above its least value 2. -/
opaque Config.posWidthBeyondTwo : Nat

/-- DESIGN CHOICE (log 2): picks `PIN_ID_WIDTH` among 1 .. `POS_WIDTH`. -/
opaque Config.pinIdWidthChoice : Nat

/-- The parameters of the block behind `State.reset`: any widths 00_scope.md R6 admits, and its
decided `POS_OVERFLOW = wrap`. -/
def Config.params : Params where
  posWidth := 2 + Config.posWidthBeyondTwo
  pinIdWidth := 1 + Config.pinIdWidthChoice % (2 + Config.posWidthBeyondTwo)
  posOverflow := .wrap

/-- DESIGN CHOICE (log 4): the construction parameter of a channel, as `k` bits (10_state.md R26). -/
opaque Config.pinId : Channel → (k : Nat) → BitVec k

/-- Free input (log 1): the level of a channel at draw `n` (20_memory.md R37). -/
opaque Config.freeLevel : Channel → Nat → Bool

/-- Free input (log 1): the command the host presents at draw `n` (00_scope.md R13). -/
opaque Config.freeCmd : Nat → CmdWord

/-- Free input (log 1): whether reset is asserted at draw `n` (70_reset_and_hazards.md R79). -/
opaque Config.freeRst : Nat → Bool

/-- Free input (log 1): the construction parameter presented at draw `n`. -/
opaque Config.freePinId : Channel → (k : Nat) → Nat → BitVec k

/-- Free input (log 7): whether power is lost in the step of draw `n` (60_exceptions.md R78). -/
opaque Config.freePowerLoss : Nat → Bool

/-- Free value (log 7): `history` when power has come up again. -/
opaque Config.powerUpHistory : Nat → History

/-- Free value (log 7): `subStep` when power has come up again. -/
opaque Config.powerUpSubStep : Nat → SubStep

/-- Free value (log 7): `position` when power has come up again. -/
opaque Config.powerUpPosition : (w : Nat) → Nat → BitVec w

/-- Free value (log 7): an identifier register when power has come up again. -/
opaque Config.powerUpPinId : Channel → (k : Nat) → Nat → BitVec k

/-- Free value (log 7): a pull-up request when power has come up again. -/
opaque Config.powerUpPullUp : Channel → Nat → Bool

end Sys2Proof
end

