-- ==== Sys2Proof/Syntax.lean ====
section
/-! DEFINITION. The eight commands of the block (spec/30_encoding.md R50, spec/opcode_table.json). -/

namespace Sys2Proof

/-- One constructor per row of the opcode table. No command has an operand (30_encoding.md R51). -/
inductive Instr where
  | nop
  | sample
  | accumulate
  | update
  | readPos
  | resetPos
  | pinAId
  | pinBId
  deriving DecidableEq, Repr

/-- The sampling family: the commands that run `SampleCore` (40_sampling.md). -/
def Instr.isSampling : Instr → Bool
  | .sample | .accumulate | .update => true
  | .nop | .readPos | .resetPos | .pinAId | .pinBId => false

end Sys2Proof
end

