-- ==== Sys2Proof/WellFormed.lean ====
section
/-! DEFINITION. The checks on data the types do not enforce: the constraints on the parameters
(spec/00_scope.md R6) and the legal stored values of `subStep` (spec/10_state.md R20). A command has no field
(spec/30_encoding.md R49, R51), so every command is well formed. -/

namespace Sys2Proof

/-- The constraints of 00_scope.md R6 on the OPEN parameters. -/
abbrev Params.WellFormed (p : Params) : Prop :=
  2 ≤ p.posWidth ∧ 1 ≤ p.pinIdWidth ∧ p.pinIdWidth ≤ p.posWidth

/-- The values `subStep` may hold between two commands, -3 .. +3 (10_state.md R20, R31). -/
abbrev SubStep.Legal (v : SubStep) : Prop :=
  -3 ≤ v.toInt ∧ v.toInt ≤ 3

/-- Well-formedness of a command: there is no operand to check (30_encoding.md R51). -/
def Instr.wellFormed : Instr → Bool
  | .nop | .sample | .accumulate | .update => true
  | .readPos | .resetPos | .pinAId | .pinBId => true

end Sys2Proof
end

