-- ==== Sys2Proof/Decode.lean ====
section
/-! DEFINITION. The command decoder and encoder (spec/30_encoding.md R49, R50), the 2-bit codes of a delta
(R52), and the code sequence of a list of commands (spec/95_test_vectors.md section 3). -/

namespace Sys2Proof

/-- Why a word is no command. -/
inductive DecodeError where
  /-- a set bit above bit 2: the command port has only bits 2:0 (30_encoding.md R49) -/
  | bitsAbovePort
  /-- a bit sequence that ends inside a 3-bit command -/
  | truncated
  deriving DecidableEq, Repr

/-- What decoding answers: a value, or a rejection by name. -/
inductive Decoded (α : Type) where
  | ok (value : α)
  | rejected (why : DecodeError)
  deriving DecidableEq, Repr

/-- The accepted value, if any. -/
def Decoded.toOption {α : Type} : Decoded α → Option α
  | .ok v => some v
  | .rejected _ => none

/-- `Decode(cmd)`: the opcode map of 30_encoding.md R50, by bits 2, 1, 0; total over the 8 codes. -/
def decode (cmd : CmdWord) : Instr :=
  match cmd.getLsbD 2, cmd.getLsbD 1, cmd.getLsbD 0 with
  | false, false, false => .nop
  | false, false, true  => .sample
  | false, true,  false => .accumulate
  | false, true,  true  => .update
  | true,  false, false => .readPos
  | true,  false, true  => .resetPos
  | true,  true,  false => .pinAId
  | true,  true,  true  => .pinBId

/-- The code of a command, from the same map. -/
def encode : Instr → CmdWord
  | .nop        => 0b000#3
  | .sample     => 0b001#3
  | .accumulate => 0b010#3
  | .update     => 0b011#3
  | .readPos    => 0b100#3
  | .resetPos   => 0b101#3
  | .pinAId     => 0b110#3
  | .pinBId     => 0b111#3

/-- Decoding a word wider than the port, total on every number: the low `nbits` bits of `w` are the word,
and a set bit above bit 2 is rejected (log 9). -/
def decodeWide (nbits w : Nat) : Decoded Instr :=
  if w % 2 ^ nbits < 8 then .ok (decode (BitVec.ofNat 3 (w % 2 ^ nbits)))
  else .rejected .bitsAbovePort

/-- The instruction the decoder reads from a word numbered as spec/opcode_table.json numbers it. -/
def decodeTableWord (nbits w : Nat) : Option Instr :=
  (decodeWide nbits w).toOption

/-- The three bits of a command as a program listing prints them, bit 2 first (log 14). -/
def encodeBits (i : Instr) : List Bool :=
  [(encode i).getLsbD 2, (encode i).getLsbD 1, (encode i).getLsbD 0]

/-- A command sequence as the sequence of its codes (95_test_vectors.md section 3). -/
def encodeStream : List Instr → List Bool
  | [] => []
  | i :: rest => encodeBits i ++ encodeStream rest

/-- The commands of a code sequence: every command is 3 bits long (30_encoding.md R49). -/
def decodeStream : List Bool → Decoded (List Instr)
  | [] => .ok []
  | b2 :: b1 :: b0 :: rest =>
    match decodeStream rest with
    | .ok is => .ok (decode (BitVec.ofBool b2 ++ BitVec.ofBool b1 ++ BitVec.ofBool b0) :: is)
    | .rejected why => .rejected why
  | [_] => .rejected .truncated
  | [_, _] => .rejected .truncated

/-- The 2-bit two's complement code of a delta or step (30_encoding.md R52). -/
def Delta.code : Delta → BitVec 2
  | .plusOne  => 0b01#2
  | .zero     => 0b00#2
  | .minusOne => 0b11#2

/-- The delta a 2-bit code stands for; `2'b10` is no delta (30_encoding.md R52, R54). -/
def Delta.ofCode (c : BitVec 2) : Option Delta :=
  match c.getLsbD 1, c.getLsbD 0 with
  | false, true  => some .plusOne
  | false, false => some .zero
  | true,  true  => some .minusOne
  | true,  false => none

end Sys2Proof
end

