-- ==== Sys2Proof/Machine/Constants.lean ====
section
/-! DEFINITION. The constants of the block: the phase-delta table (spec/20_memory.md R35), the thresholds and
the reset values of the three mutable registers (spec/00_scope.md R6). -/

namespace Sys2Proof.Machine

/-- The phase-delta table in index order, kept as a table (20_memory.md R35, R36). -/
def phaseTable : Vector Delta 16 :=
  #v[.zero,     .minusOne, .plusOne,  .zero,
     .plusOne,  .zero,     .zero,     .minusOne,
     .minusOne, .zero,     .zero,     .plusOne,
     .zero,     .plusOne,  .minusOne, .zero]

/-- `STEP_UP_THRESHOLD`: +1 is emitted above it (00_scope.md R6, 40_sampling.md R56). -/
def stepUpThreshold : Int := 3

/-- `STEP_DOWN_THRESHOLD`: -1 is emitted below it (00_scope.md R6, 40_sampling.md R56). -/
def stepDownThreshold : Int := -3

/-- `HISTORY_RESET` (10_state.md R19, 90_conflicts.md C2). -/
def historyReset : History := 0b0011#4

/-- `SUBSTEP_RESET` (10_state.md R21). -/
def subStepReset : SubStep := 0#4

/-- `POSITION_RESET`, also what RESET_POS writes (10_state.md R25, 41_position.md R62). -/
def positionReset (w : Nat) : BitVec w := 0#w

/-- What each pull-up request is from reset onward (70_reset_and_hazards.md R81). -/
def pullUpReset : Bool := true

end Sys2Proof.Machine
end

