-- ==== Sys2Proof/Machine/State.lean ====
section
/-! DEFINITION. The state of the block as plain data: the registers of spec/10_state.md R15, the outputs and
inputs of spec/30_encoding.md R48, the parameters of spec/00_scope.md R6, and the model's own feed of inputs
(log 1). The block has no memory (spec/20_memory.md R32, log 11). -/

namespace Sys2Proof.Machine

/-- Why the machine stops. -/
inductive Fault where
  /-- Raised by `step` when a command is presented before the first reset, or after power came up without one:
  the block is stuck until reset (70_reset_and_hazards.md R80, 60_exceptions.md R78). Safe: the model stops where
  the spec gives no meaning. -/
  | commandBeforeReset
  /-- Raised by ACCUMULATE and UPDATE under `POS_OVERFLOW = fault`, when the add leaves the range of `position`
  (10_state.md R23, 60_exceptions.md R67). Safe: the spec's own conservative outcome. -/
  | positionOverflow
  deriving DecidableEq, Repr

/-- Why a step has no meaning. -/
inductive Refusal where
  /-- Raised by no arm of `exec` today: every command has its meaning. Safe: the model would stop. -/
  | notModelled (mnemonic : String)
  /-- Raised by `platformStep` when two decoders of a platform are bound to one pin, or the step would bind them so
  (60_exceptions.md R76, log 17). Safe: the model stops where the spec gives no meaning. -/
  | sharedPin
  deriving DecidableEq, Repr

/-- The signals presented for one step (30_encoding.md R48), with identifiers of `k` bits. -/
structure Inputs (k : Nat) where
  /-- power is lost in this step (60_exceptions.md R78): the model's name for that event, log 7 -/
  powerLoss : Bool
  /-- `rst` -/
  rst : Bool
  /-- `cmd` -/
  cmd : CmdWord
  /-- `a_in`, what `PinRead(A)` returns in this step -/
  aIn : Bool
  /-- `b_in`, what `PinRead(B)` returns in this step -/
  bIn : Bool
  /-- construction parameter `PIN_A_ID`, taken by a reset -/
  idA : BitVec k
  /-- construction parameter `PIN_B_ID`, taken by a reset -/
  idB : BitVec k
  deriving DecidableEq, Repr

/-- Free draw number `n` of the inputs of a step (00_scope.md R13, 20_memory.md R37, log 1). DESIGN CHOICE (log 16): a
draw depends on its number and the identifier width alone, so two decoders of a platform at equal counters and with
nothing pending draw the same command, reset, loss of power and levels, a relation the spec gives no law for. -/
def Inputs.free (k n : Nat) : Inputs k where
  powerLoss := Config.freePowerLoss n
  rst := Config.freeRst n
  cmd := Config.freeCmd n
  aIn := Config.freeLevel .a n
  bIn := Config.freeLevel .b n
  idA := Config.freePinId .a k n
  idB := Config.freePinId .b k n

/-- The whole state of the block. -/
structure State where
  /-- `POS_WIDTH`, `PIN_ID_WIDTH`, `POS_OVERFLOW` (00_scope.md R6); no step writes them -/
  params : Params
  /-- the 4-bit rolling history (10_state.md R17) -/
  history : History
  /-- the sub-step accumulator (10_state.md R20) -/
  subStep : SubStep
  /-- the position counter (10_state.md R22) -/
  position : BitVec params.posWidth
  /-- `PIN_A_ID` (10_state.md R26) -/
  pinAId : BitVec params.pinIdWidth
  /-- `PIN_B_ID` (10_state.md R26) -/
  pinBId : BitVec params.pinIdWidth
  /-- `pu_a`, the pull-up request for the pin of channel A (70_reset_and_hazards.md R81) -/
  puA : Bool
  /-- `pu_b` -/
  puB : Bool
  /-- the result port after the last step: `rvalid` is whether it is present, `rdata` the word (30_encoding.md R53) -/
  result : Option (BitVec params.posWidth)
  /-- whether a reset has happened since power came up (70_reset_and_hazards.md R80, log 8) -/
  constructed : Bool
  /-- the signals presented for the coming step (30_encoding.md R48) -/
  port : Inputs params.pinIdWidth
  /-- the model's own: signals already fixed for the steps after that, oldest first (log 1) -/
  pending : List (Inputs params.pinIdWidth)
  /-- the model's own: how many free draws have been made (log 1) -/
  drawn : Nat
  deriving DecidableEq, Repr

/-- `rvalid` (30_encoding.md R53). -/
def State.rvalid (s : State) : Bool := s.result.isSome

/-- The machine right after a reset (70_reset_and_hazards.md R79), for parameters the spec leaves OPEN and inputs
nothing constrains. -/
def State.reset : State where
  params := Config.params
  history := historyReset
  subStep := subStepReset
  position := positionReset Config.params.posWidth
  pinAId := Config.pinId .a Config.params.pinIdWidth
  pinBId := Config.pinId .b Config.params.pinIdWidth
  puA := pullUpReset
  puB := pullUpReset
  result := none
  constructed := true
  port := Inputs.free Config.params.pinIdWidth 0
  pending := []
  drawn := 1

end Sys2Proof.Machine
end

