-- ==== Sys2Proof/Machine/Operands.lean ====
section
/-! DEFINITION. The implicit operands of the commands (spec/30_encoding.md R51): the two channel levels, the
history a sampling command looks up, the table read, and the words a command puts on the result port. -/

namespace Sys2Proof.Machine

/-- `PinRead(ch)`: the level presented on the channel in this step (20_memory.md R37, log 10). -/
def pinRead (ch : Channel) (s : State) : Bool :=
  match ch with
  | .a => s.port.aIn
  | .b => s.port.bIn

/-- Steps 1 and 2 of SampleCore: shift left by 2, then A into bit 1 and B into bit 0 (40_sampling.md R56). -/
def shiftIn (h : History) (levelA levelB : Bool) : History :=
  (h <<< 2) ||| (if levelA then 0b0010#4 else 0#4) ||| (if levelB then 0b0001#4 else 0#4)

/-- The history a sampling command stores and looks up in this step. -/
def sampledHistory (s : State) : History :=
  shiftIn s.history (pinRead .a s) (pinRead .b s)

/-- `LUT[i]`: total, with no side effect (20_memory.md R36). -/
def tableRead (i : History) : Delta :=
  phaseTable.get i.toFin

/-- The delta a sampling command looks up in this step (40_sampling.md R56, step 3). -/
def lookedUp (s : State) : Delta :=
  tableRead (sampledHistory s)

/-- SAMPLE's word on the result port: `sext_POS_WIDTH` of the step's 2-bit code (30_encoding.md R53). -/
def stepWord (w : Nat) (st : Delta) : BitVec w :=
  st.code.signExtend w

/-- An identifier on the result port: `zext_POS_WIDTH` (30_encoding.md R53). -/
def pinIdWord {k : Nat} (w : Nat) (pin : BitVec k) : BitVec w :=
  pin.setWidth w

end Sys2Proof.Machine
end

