-- ==== Sys2Proof/Machine/Flags.lean ====
section
/-! DEFINITION. The conditions a command computes. The block has no status flags, condition codes or
predicates (spec/10_state.md R27): the conditions are the threshold trigger of a sampling command and the range test
of the position add, and neither is retained. -/

namespace Sys2Proof.Machine

/-- Step 4 of SampleCore: the exact sum of `subStep` and a delta (40_sampling.md R56). -/
def subStepSum (v : SubStep) (d : Delta) : Int :=
  v.toInt + d.toInt

/-- Step 5 of SampleCore, the emitted step of a sum (40_sampling.md R56). -/
def emittedStep (sum : Int) : Delta :=
  if sum > stepUpThreshold then .plusOne
  else if sum < stepDownThreshold then .minusOne
  else .zero

/-- Step 5 of SampleCore, what `subStep` holds afterwards: 0 after an emission, else the sum (40_sampling.md R56). -/
def storedSubStep (sum : Int) : SubStep :=
  match emittedStep sum with
  | .zero => BitVec.ofInt 4 sum
  | .plusOne | .minusOne => 0#4

/-- Whether an integer lies outside the `w`-bit signed range (10_state.md R23). -/
def outOfRange (w : Nat) (r : Int) : Bool :=
  decide (r > 2 ^ (w - 1) - 1) || decide (r < -(2 ^ (w - 1)))

end Sys2Proof.Machine
end

