-- ==== Sys2Proof/Machine/Ops.lean ====
section
/-! DEFINITION. The named operations over the state: the updates, SampleCore (spec/40_sampling.md R56), PosAdd
(spec/10_state.md R23), the reset event (spec/70_reset_and_hazards.md R79), loss of power (spec/60_exceptions.md
R78), and how a step takes its inputs. There is no trap entry and no return from one (spec/60_exceptions.md R70,
R71): nothing traps, and the one fault of the model stops the block. The updates of the state are abbreviations, so that the
widths in the types of its fields are seen through them. -/

namespace Sys2Proof.Machine

/-- The answer of a meaning. -/
abbrev Answer := Host.Outcome State Fault Refusal

/-- Goes on with a next state; a fault or a refusal stays as it is. -/
def andThen (o : Answer) (f : State → Answer) : Answer :=
  match o with
  | .next s => f s
  | .fault r => .fault r
  | .refused r => .refused r

/-- Writes the two registers a sampling command writes. -/
abbrev State.setSampler (s : State) (h : History) (v : SubStep) : State :=
  { s with history := h, subStep := v }

/-- Writes `position`. -/
abbrev State.setPosition (s : State) (p : BitVec s.params.posWidth) : State :=
  { s with position := p }

/-- Drives the result port: a word, or no result (30_encoding.md R53). -/
abbrev State.setResult (s : State) (r : Option (BitVec s.params.posWidth)) : State :=
  { s with result := r }

/-- Puts signals on the port for the coming step. -/
abbrev State.present (s : State) (i : Inputs s.params.pinIdWidth) : State :=
  { s with port := i }

/-- The step a sampling command emits in this state (40_sampling.md R56, steps 3 to 5). -/
def sampleStep (s : State) : Delta :=
  emittedStep (subStepSum s.subStep (lookedUp s))

/-- `SampleCore()`: the emitted step, and the state with `history` and `subStep` written (40_sampling.md R56). -/
def sampleCore (s : State) : Delta × State :=
  (sampleStep s, s.setSampler (sampledHistory s) (storedSubStep (subStepSum s.subStep (lookedUp s))))

/-- `PosAdd(st)`: adds a step to `position`; outside the range it wraps or faults as `POS_OVERFLOW` says
(10_state.md R23). -/
def posAdd (st : Delta) (s : State) : Answer :=
  let r := s.position.toInt + st.toInt
  let sum := BitVec.ofInt s.params.posWidth r
  match s.params.posOverflow with
  | .wrap => .next (s.setPosition sum)
  | .fault =>
    if outOfRange s.params.posWidth r then .fault .positionOverflow
    else .next (s.setPosition sum)

/-- The reset event with construction parameters `ida` and `idb` (70_reset_and_hazards.md R79). -/
abbrev State.construct (s : State) (ida idb : BitVec s.params.pinIdWidth) : State :=
  { s with
    pinAId := ida, pinBId := idb
    history := historyReset, subStep := subStepReset
    position := positionReset s.params.posWidth
    puA := pullUpReset, puB := pullUpReset
    result := none, constructed := true }

/-- Loss and return of power: no state survives, every register is a free value, and the block awaits a reset
(60_exceptions.md R78, log 7). The values depend on the counter and the widths alone, also across the decoders of a platform
(DESIGN CHOICE, log 16). -/
abbrev State.losePower (s : State) : State :=
  { s with
    history := Config.powerUpHistory s.drawn
    subStep := Config.powerUpSubStep s.drawn
    position := Config.powerUpPosition s.params.posWidth s.drawn
    pinAId := Config.powerUpPinId .a s.params.pinIdWidth s.drawn
    pinBId := Config.powerUpPinId .b s.params.pinIdWidth s.drawn
    puA := Config.powerUpPullUp .a s.drawn
    puB := Config.powerUpPullUp .b s.drawn
    result := none, constructed := false, drawn := s.drawn + 1 }

/-- The signals of the step after this one: the oldest pending ones, else a free draw (log 1). -/
def State.nextPort (s : State) : Inputs s.params.pinIdWidth :=
  match s.pending with
  | i :: _ => i
  | [] => Inputs.free s.params.pinIdWidth s.drawn

/-- Takes the signals of the coming step from where `nextPort` finds them (log 1). -/
abbrev State.takeInputs (s : State) : State :=
  { s with
    port := s.nextPort, pending := s.pending.tail
    drawn := if s.pending.isEmpty then s.drawn + 1 else s.drawn }

/-- What a step does. -/
inductive StepKind where
  /-- power is lost (60_exceptions.md R78) -/
  | powerLoss
  /-- the reset event (70_reset_and_hazards.md R79) -/
  | reset
  /-- a command before the first reset: no step (70_reset_and_hazards.md R80) -/
  | stuck
  /-- the presented command -/
  | command
  deriving DecidableEq, Repr

/-- Which of these the presented signals ask for: reset wins over a command (60_exceptions.md R69). -/
def State.stepKind (s : State) : StepKind :=
  if s.port.powerLoss then .powerLoss
  else if s.port.rst then .reset
  else if s.constructed then .command
  else .stuck

/-- The command presented in this step (30_encoding.md R48, R50). -/
def State.fetch (s : State) : Instr :=
  decode s.port.cmd

/-- Puts the command word `w` on the port of a constructed block, reset and power loss not asserted, the levels
and the rest of the port as they are (log 9). -/
abbrev State.presentWord (s : State) (w : Nat) : State :=
  { s with
    constructed := true
    port := { s.port with powerLoss := false, rst := false, cmd := BitVec.ofNat 3 w } }

end Sys2Proof.Machine
end

