-- ==== Sys2Proof/Machine/Identity.lean ====
section
/-! DEFINITION. The identity and idle commands PIN_A_ID, PIN_B_ID and NOP (spec/42_identity_and_idle.md). -/

namespace Sys2Proof.Machine

/-- PIN_A_ID: return the identifier of channel A (42_identity_and_idle.md R63). -/
def execPinAId (s : State) : Answer :=
  .next (s.setResult (some (pinIdWord s.params.posWidth s.pinAId)))

/-- PIN_B_ID: return the identifier of channel B (42_identity_and_idle.md R64). -/
def execPinBId (s : State) : Answer :=
  .next (s.setResult (some (pinIdWord s.params.posWidth s.pinBId)))

/-- NOP: no state read or written, no result (42_identity_and_idle.md R65). -/
def execNop (s : State) : Answer :=
  .next (s.setResult none)

end Sys2Proof.Machine
end

