-- ==== Sys2Proof/Machine/Position.lean ====
section
/-! DEFINITION. The position commands READ_POS and RESET_POS (spec/41_position.md). -/

namespace Sys2Proof.Machine

/-- READ_POS: return `position` without sampling (41_position.md R61). -/
def execReadPos (s : State) : Answer :=
  .next (s.setResult (some s.position))

/-- RESET_POS: set `position` to 0; `subStep` and `history` survive (41_position.md R62). -/
def execResetPos (s : State) : Answer :=
  .next ((s.setPosition (positionReset s.params.posWidth)).setResult none)

end Sys2Proof.Machine
end

