-- ==== Sys2Proof/Machine/Sampling.lean ====
section
/-! DEFINITION. The sampling commands SAMPLE, ACCUMULATE and UPDATE (spec/40_sampling.md). -/

namespace Sys2Proof.Machine

/-- SampleCore, then PosAdd of the emitted step: what ACCUMULATE and UPDATE share (40_sampling.md R59, R60). -/
def sampleAndAdd (s : State) : Answer :=
  posAdd (sampleCore s).1 (sampleCore s).2

/-- SAMPLE: sample once and return the step; `position` is untouched (40_sampling.md R58). -/
def execSample (s : State) : Answer :=
  let r := sampleCore s
  .next (r.2.setResult (some (stepWord r.2.params.posWidth r.1)))

/-- ACCUMULATE: sample, add the step to `position`, return the new `position` (40_sampling.md R59). -/
def execAccumulate (s : State) : Answer :=
  andThen (sampleAndAdd s) fun t => .next (t.setResult (some t.position))

/-- UPDATE: as ACCUMULATE without a result (40_sampling.md R60). -/
def execUpdate (s : State) : Answer :=
  andThen (sampleAndAdd s) fun t => .next (t.setResult none)

end Sys2Proof.Machine
end

