-- ==== Sys2Proof/Machine/Dispatch.lean ====
section
/-! DEFINITION. One arm per command, each one call of its meaning. -/

namespace Sys2Proof.Machine

def exec (i : Instr) (s : State) : Host.Outcome State Fault Refusal :=
  match i with
  | .nop => Sys2Proof.Machine.execNop s
  | .sample => Sys2Proof.Machine.execSample s
  | .accumulate => Sys2Proof.Machine.execAccumulate s
  | .update => Sys2Proof.Machine.execUpdate s
  | .readPos => Sys2Proof.Machine.execReadPos s
  | .resetPos => Sys2Proof.Machine.execResetPos s
  | .pinAId => Sys2Proof.Machine.execPinAId s
  | .pinBId => Sys2Proof.Machine.execPinBId s

end Sys2Proof.Machine
end

