-- ==== Sys2Proof/Machine/Step.lean ====
section
/-! DEFINITION. One atomic step of the block (spec/20_memory.md R42, R43; spec/70_reset_and_hazards.md R79, R80):
loss of power, the reset event, or the presented command; then the signals of the coming step are taken. -/

namespace Sys2Proof.Machine

/-- One step (00_scope.md R2, R13). -/
def step (s : State) : Host.Outcome State Fault Refusal :=
  match s.stepKind with
  | .powerLoss => .next s.losePower.takeInputs
  | .reset => .next (s.construct s.port.idA s.port.idB).takeInputs
  | .stuck => .fault .commandBeforeReset
  | .command => andThen (exec s.fetch s) fun t => .next t.takeInputs

/-- `s` with the command word `w` presented for the coming step. A word with a bit the port does not have
decodes to no command (`decodeTableWord`), and nothing is presented for it (log 9). -/
def State.withFetchWord (s : State) (nbits w : Nat) : State :=
  match decodeTableWord nbits w with
  | some _ => s.presentWord (w % 2 ^ nbits)
  | none => s

end Sys2Proof.Machine
end

