-- ==== Sys2Proof/Machine/Platform.lean ====
section
/-! DEFINITION. A platform that holds several decoders (spec/60_exceptions.md R76, spec/20_memory.md R38): each has its
own state, and two decoders bound to one pin are refused. The decoder itself is `step`; nothing here changes it. -/

namespace Sys2Proof.Machine

/-- The pins a decoder is bound to, as numbers; a decoder that awaits its reset is bound to none (log 12). -/
def State.pins (s : State) : List Nat :=
  if s.constructed then [s.pinAId.toNat, s.pinBId.toNat] else []

/-- Whether two decoders are bound to a common pin. -/
def sharesPin (d e : State) : Bool :=
  d.pins.any fun p => e.pins.contains p

/-- "multiple decoders must not be bound to the same pin" (60_exceptions.md R76). -/
def exclusivePins : List State → Bool
  | [] => true
  | d :: rest => rest.all (fun e => !sharesPin d e) && exclusivePins rest

/-- Replaces decoder number `k`. -/
def replaceAt : List State → Nat → State → List State
  | [], _, _ => []
  | _ :: rest, 0, t => t :: rest
  | d :: rest, k + 1, t => d :: replaceAt rest k t

/-- Answers a list of decoders as a platform: one that binds two decoders to one pin has no meaning (60_exceptions.md
R76, 20_memory.md R38). -/
def asPlatform (ds : List State) : Host.Outcome (List State) Fault Refusal :=
  if exclusivePins ds then .next ds else .refused .sharedPin

/-- Decoder number `k` of a platform takes one step; no other decoder is touched. The pins are tested before the step and
after it, so the reset that would bind a decoder to another's pin is refused itself (60_exceptions.md R76, log 17). A number
with no decoder steps nothing (DESIGN CHOICE, log 12).
DESIGN CHOICE (log 18): a fault of the stepped decoder, which stops that block (60_exceptions.md R70), is the answer of the
whole platform, and the other decoders then have no next state. -/
def platformStep (ds : List State) (k : Nat) : Host.Outcome (List State) Fault Refusal :=
  if exclusivePins ds then
    match ds[k]? with
    | none => .next ds
    | some d =>
      match step d with
      | .next t => asPlatform (replaceAt ds k t)
      | .fault r => .fault r
      | .refused r => .refused r
  else .refused .sharedPin

end Sys2Proof.Machine
end

