-- ==== Sys2Proof/Safety.lean ====
section
/-! DEFINITION. The terms in which statements speak of the block: its invariant (spec/10_state.md R31), the detent
account (R31), what a host can observe (R30), and runs of commands. -/

namespace Sys2Proof.Machine

/-- The invariant between any two steps: the parameters meet their constraints, and a constructed block holds a
legal `subStep` (10_state.md R20, R31) and requests both pull-ups (70_reset_and_hazards.md R81). -/
abbrev State.Inv (s : State) : Prop :=
  s.params.WellFormed ∧
    (s.constructed = true → s.subStep.Legal ∧ s.puA = true ∧ s.puB = true)

/-- The coming step performs command `i` of a constructed block: neither power loss nor reset is presented. -/
abbrev State.Performs (s : State) (i : Instr) : Prop :=
  s.stepKind = .command ∧ s.fetch = i

/-- The current sample, `history[1:0]` (10_state.md R17). -/
def State.currentSample (s : State) : Sample :=
  s.history.extractLsb' 0 2

/-- The sample a sampling command takes in this step, `{A, B}` (00_scope.md R11). -/
def State.newSample (s : State) : Sample :=
  BitVec.ofBool s.port.aIn ++ BitVec.ofBool s.port.bIn

/-- The detent account `4 * sint(position) + sint(subStep)` (10_state.md R31). -/
def State.account (s : State) : Int :=
  4 * s.position.toInt + s.subStep.toInt

/-- The port with the channel levels `x` and `y`, all else as it is. -/
def State.withLevels (s : State) (x y : Bool) : State :=
  { s with port := { s.port with aIn := x, bIn := y } }

/-- The sample after `p` in the forward cycle (0,0), (1,0), (1,1), (0,1), (0,0) (20_memory.md R34). -/
def forwardNext (p : Sample) : Sample :=
  if p = 0b00#2 then 0b10#2
  else if p = 0b10#2 then 0b11#2
  else if p = 0b11#2 then 0b01#2
  else 0b00#2

/-- The sample after `p` in the reverse cycle (0,0), (0,1), (1,1), (1,0), (0,0) (20_memory.md R34). -/
def reverseNext (p : Sample) : Sample :=
  if p = 0b00#2 then 0b01#2
  else if p = 0b01#2 then 0b11#2
  else if p = 0b11#2 then 0b10#2
  else 0b00#2

/-- `n` commands `i`, each seeing the sample `next` gives after the one before it. -/
def turning (next : Sample → Sample) (i : Instr) : Nat → Sample → List (Instr × Bool × Bool)
  | 0, _ => []
  | n + 1, p => (i, (next p).getLsbD 1, (next p).getLsbD 0) :: turning next i n (next p)

/-- A command with channel levels, presented to a block that is neither reset nor losing power. -/
def State.offer (s : State) (i : Instr) (x y : Bool) : State :=
  { s with port := { s.port with powerLoss := false, rst := false, cmd := encode i, aIn := x, bIn := y } }

/-- A host's command sequence with the levels each command sees, performed in issue order
(20_memory.md R43, R44; 00_scope.md R14). -/
def performs : List (Instr × Bool × Bool) → State → Answer
  | [], s => .next s
  | (i, x, y) :: rest, s => andThen (exec i (s.offer i x y)) (performs rest)

/-- The signals that present a command with channel levels, neither reset nor loss of power. -/
def commandInputs {k : Nat} (ida idb : BitVec k) (c : Instr × Bool × Bool) : Inputs k where
  powerLoss := false
  rst := false
  cmd := encode c.1
  aIn := c.2.1
  bIn := c.2.2
  idA := ida
  idB := idb

/-- `k` steps of the machine, stopping at the first fault or refusal (the host's `Host.Core.run` at this block). -/
def run : Nat → State → Answer
  | 0, s => .next s
  | k + 1, s => andThen (step s) (run k)

/-- The result ports a host sees along a command sequence, as integers, up to the first fault. -/
def observed : List (Instr × Bool × Bool) → State → List (Option Int)
  | [], _ => []
  | (i, x, y) :: rest, s =>
    match exec i (s.offer i x y) with
    | .next t => t.result.map BitVec.toInt :: observed rest t
    | .fault _ => []
    | .refused _ => []

/-- The sum of the deltas a command sequence looks up (10_state.md R31). -/
def deltaSum : List (Instr × Bool × Bool) → State → Int
  | [], _ => 0
  | (i, x, y) :: rest, s =>
    match exec i (s.offer i x y) with
    | .next t => (if i.isSampling then (lookedUp (s.offer i x y)).toInt else 0) + deltaSum rest t
    | .fault _ => 0
    | .refused _ => 0

/-- Whether no ACCUMULATE or UPDATE of a command sequence leaves the range of `position` (10_state.md R23, R31). -/
def neverWraps : List (Instr × Bool × Bool) → State → Bool
  | [], _ => true
  | (i, x, y) :: rest, s =>
    match exec i (s.offer i x y) with
    | .next t =>
      (!(i == .accumulate || i == .update) ||
        !outOfRange s.params.posWidth (s.position.toInt + (sampleStep (s.offer i x y)).toInt)) && neverWraps rest t
    | .fault _ => true
    | .refused _ => true

end Sys2Proof.Machine
end

