-- ==== Sys2Proof/Certificates/Slice0/Obligations.lean ====
section
/-! DEFINITION. The statements for the provers. Each docstring names the rule of spec/ it formalises. A next state is
written out as the old state with the fields the rule names, so a statement of a result is also the frame of its
command: every field that does not appear is unchanged. -/

open Sys2Proof Sys2Proof.Machine

/-! ## Decoding -/

/-- The opcode map of 30_encoding.md R50, row by row, and its sampling family. -/
def Obligations.CommandCodesDecode : Prop :=
  decode 0b000#3 = .nop ∧ decode 0b001#3 = .sample ∧ decode 0b010#3 = .accumulate ∧ decode 0b011#3 = .update ∧
  decode 0b100#3 = .readPos ∧ decode 0b101#3 = .resetPos ∧ decode 0b110#3 = .pinAId ∧ decode 0b111#3 = .pinBId ∧
  ∀ op : CmdWord, (decode op).isSampling = true ↔ op.getLsbD 2 = false ∧ op ≠ 0b000#3

/-- Decoder and encoder are inverse to each other: no code is reserved and no bit is dropped (30_encoding.md R49,
R50, R54). -/
def Obligations.DecodeEncodeAgree : Prop :=
  (∀ i : Instr, i.wellFormed = true → decode (encode i) = i) ∧ ∀ op : CmdWord, encode (decode op) = op

/-- A command sequence and its code sequence determine each other, and every bit sequence of whole commands is one
(30_encoding.md R49, R54; 95_test_vectors.md section 3). -/
def Obligations.CommandStreamRoundTrip : Prop :=
  (∀ is : List Instr, decodeStream (encodeStream is) = .ok is) ∧
  (∀ (bits : List Bool) (is : List Instr), decodeStream bits = .ok is → encodeStream is = bits) ∧
  ∀ bits : List Bool, (∃ is, decodeStream bits = .ok is) ↔ bits.length % 3 = 0

/-- The 2-bit codes of a delta or step (30_encoding.md R52). -/
def Obligations.DeltaCodes : Prop :=
  Delta.plusOne.code = 0b01#2 ∧ Delta.zero.code = 0b00#2 ∧ Delta.minusOne.code = 0b11#2 ∧
  Delta.ofCode 0b10#2 = none ∧
  ∀ d : Delta, d.code ≠ 0b10#2 ∧ d.code.toInt = d.toInt ∧ Delta.ofCode d.code = some d

/-! ## The table -/

/-- The sixteen values of 20_memory.md R35, and the properties that rule lists. -/
def Obligations.PhaseTableValues : Prop :=
  phaseTable.toList.map Delta.toInt = [0, -1, 1, 0, 1, 0, 0, -1, -1, 0, 0, 1, 0, 1, -1, 0] ∧
  (∀ i : History, phaseTable.toList[i.toNat]? = some (tableRead i)) ∧
  phaseTable.toList.count .plusOne = 4 ∧ phaseTable.toList.count .minusOne = 4 ∧
  phaseTable.toList.count .zero = 8 ∧
  (∀ p c : Sample, (tableRead (p ++ c)).toInt = -(tableRead (c ++ p)).toInt) ∧
  ∀ i ∈ [0#4, 5#4, 10#4, 15#4, 3#4, 6#4, 9#4, 12#4], tableRead i = .zero

/-- The transition classes of 20_memory.md R33 and the direction convention of R34. -/
def Obligations.TransitionClasses : Prop :=
  (∀ p c : Sample, p ^^^ c = 0b00#2 ∨ p ^^^ c = 0b11#2 → tableRead (p ++ c) = .zero) ∧
  (∀ p c : Sample, p ^^^ c = 0b01#2 ∨ p ^^^ c = 0b10#2 →
    tableRead (p ++ c) = .plusOne ∨ tableRead (p ++ c) = .minusOne) ∧
  (∀ p : Sample, tableRead (p ++ forwardNext p) = .plusOne ∧ tableRead (p ++ reverseNext p) = .minusOne) ∧
  [0b00#2, 0b10#2, 0b11#2, 0b01#2].map forwardNext = [0b10#2, 0b11#2, 0b01#2, 0b00#2] ∧
  [0b00#2, 0b01#2, 0b11#2, 0b10#2].map reverseNext = [0b01#2, 0b11#2, 0b10#2, 0b00#2]

/-! ## The step, reset and power -/

/-- A constructed block that is neither reset nor losing power performs the command on its port, and the signals of the
coming step are then taken (20_memory.md R42, R43; log 1, log 7). -/
def Obligations.StepPerformsDecodedCommand : Prop :=
  ∀ s : State, s.constructed = true → s.port.powerLoss = false → s.port.rst = false →
    step s = andThen (exec (decode s.port.cmd) s) fun t => .next t.takeInputs

/-- The model's own (log 1): taking the signals of the coming step changes the port and the feed and no register; the
oldest pending signals come first, and with none pending the draw is free. -/
def Obligations.InputsAreTakenInOrder : Prop :=
  (∀ (s : State) (i : Inputs s.params.pinIdWidth) (rest : List (Inputs s.params.pinIdWidth)), s.pending = i :: rest →
    s.takeInputs = { s with port := i, pending := rest }) ∧
  ∀ s : State, s.pending = [] →
    s.takeInputs = { s with port := Inputs.free s.params.pinIdWidth s.drawn, drawn := s.drawn + 1 }

/-- The word the interface presents is the word the next step performs (log 9). -/
def Obligations.PresentedWordIsPerformed : Prop :=
  ∀ (s : State) (nbits w : Nat) (i : Instr), decodeTableWord nbits w = some i →
    step (s.withFetchWord nbits w) = andThen (exec i (s.withFetchWord nbits w)) fun t => .next t.takeInputs

/-- The reset step of 70_reset_and_hazards.md R79: at any time, constructed or not, whatever the command and the levels,
and with the same effect; reset wins over the command (60_exceptions.md R69). -/
def Obligations.ResetStep : Prop :=
  ∀ s : State, s.port.powerLoss = false → s.port.rst = true →
    step s = .next (State.takeInputs
      { s with
        pinAId := s.port.idA, pinBId := s.port.idB, history := 0b0011#4, subStep := 0#4
        position := 0#s.params.posWidth, puA := true, puB := true, result := none, constructed := true })

/-- The reset values of the three mutable registers (10_state.md R19, R21, R25): in `State.reset`, after every reset
event, and what RESET_POS leaves; the idle seed becomes the previous sample of the first sampling command (R19). -/
def Obligations.ResetRegisterValues : Prop :=
  (State.reset.history = 0b0011#4 ∧ State.reset.subStep = 0#4 ∧ State.reset.position = 0#_) ∧
  (∀ (s : State) (ida idb : BitVec s.params.pinIdWidth), (s.construct ida idb).history = 0b0011#4 ∧
    (s.construct ida idb).subStep = 0#4 ∧ (s.construct ida idb).position = 0#s.params.posWidth) ∧
  (∀ s : State, exec .resetPos s = .next { s with position := 0#s.params.posWidth, result := none }) ∧
  (0b0011#4).getLsbD 3 = false ∧ (0b0011#4).getLsbD 2 = false ∧
  (0b0011#4).getLsbD 1 = true ∧ (0b0011#4).getLsbD 0 = true ∧
  ∀ levelA levelB : Bool, (shiftIn 0b0011#4 levelA levelB).extractLsb' 2 2 = 0b11#2

/-- The state right after reset meets the invariant. -/
def Obligations.ResetMeetsInvariant : Prop :=
  State.reset.Inv

/-- Before the first reset no command is performed, and a reset ends that (70_reset_and_hazards.md R80). -/
def Obligations.CommandBeforeResetIsStuck : Prop :=
  (∀ s : State, s.constructed = false → s.port.powerLoss = false → s.port.rst = false →
    step s = .fault .commandBeforeReset) ∧
  ∀ s : State, s.constructed = false → s.port.powerLoss = false → s.port.rst = true →
    ∃ t, step s = .next t ∧ t.constructed = true

/-- No state survives a loss of power, and what the registers then hold is free (60_exceptions.md R78; the event and its
priority are the model's own, log 7). -/
def Obligations.PowerLossLosesState : Prop :=
  ∀ s : State, s.port.powerLoss = true →
    step s = .next (State.takeInputs
      { s with
        history := Config.powerUpHistory s.drawn, subStep := Config.powerUpSubStep s.drawn
        position := Config.powerUpPosition s.params.posWidth s.drawn
        pinAId := Config.powerUpPinId .a s.params.pinIdWidth s.drawn
        pinBId := Config.powerUpPinId .b s.params.pinIdWidth s.drawn
        puA := Config.powerUpPullUp .a s.drawn, puB := Config.powerUpPullUp .b s.drawn
        result := none, constructed := false, drawn := s.drawn + 1 })

/-- Between resets, and while power holds, the identifiers, the pull-up requests and the parameters stay as they are
(10_state.md R26, R31; 70_reset_and_hazards.md R81; 00_scope.md R6). -/
def Obligations.BindingHeldBetweenResets : Prop :=
  ∀ s t : State, step s = .next t →
    t.params = s.params ∧
    (s.port.powerLoss = false → s.port.rst = false →
      t.pinAId.toNat = s.pinAId.toNat ∧ t.pinBId.toNat = s.pinBId.toNat ∧
      t.puA = s.puA ∧ t.puB = s.puB ∧ t.constructed = s.constructed)

/-- The invariant of 10_state.md R20, R31 is kept by every step: command, reset, or loss of power. -/
def Obligations.InvariantKeptByEveryStep : Prop :=
  ∀ s t : State, s.Inv → step s = .next t → t.Inv

/-! ## The sampling commands -/

/-- SampleCore as 40_sampling.md R56 writes it, and its last paragraph: from a legal `subStep` the sum is in -4 .. +4 and
the two emitting branches are taken at +4 and -4 exactly. -/
def Obligations.SampleCoreProcedure : Prop :=
  ∀ s : State,
    let h : History := s.currentSample ++ s.newSample
    let sum : Int := s.subStep.toInt + (tableRead h).toInt
    sampleCore s =
      (if sum > 3 then (.plusOne, { s with history := h, subStep := 0#4 })
       else if sum < -3 then (.minusOne, { s with history := h, subStep := 0#4 })
       else (.zero, { s with history := h, subStep := BitVec.ofInt 4 sum })) ∧
    (s.subStep.Legal → -4 ≤ sum ∧ sum ≤ 4 ∧ (sum > 3 ↔ sum = 4) ∧ (sum < -3 ↔ sum = -4))

/-- SAMPLE (40_sampling.md R58): `history` and `subStep` as SampleCore writes them, the step as the result, sign-extended,
and `position` untouched. It completes in every state. -/
def Obligations.SampleCommand : Prop :=
  encode .sample = 0b001#3 ∧
  ∀ s : State, ∃ word : BitVec s.params.posWidth,
    exec .sample s = .next
      { s with history := (sampleCore s).2.history, subStep := (sampleCore s).2.subStep, result := some word } ∧
    word = (sampleCore s).1.code.signExtend s.params.posWidth ∧
    (2 ≤ s.params.posWidth → word.toInt = (sampleCore s).1.toInt)

/-- ACCUMULATE (40_sampling.md R59): with `wrap`, or inside the range, it completes with the new `position` as the
result; with `fault`, outside the range, it is the overflow fault. A step of 0 leaves `position` as it is under either, and
the result is what a READ_POS issued next returns. -/
def Obligations.AccumulateCommand : Prop :=
  encode .accumulate = 0b010#3 ∧
  ∀ s : State,
    let r : Int := s.position.toInt + (sampleCore s).1.toInt
    let inRange : Prop := -(2 ^ (s.params.posWidth - 1)) ≤ r ∧ r ≤ 2 ^ (s.params.posWidth - 1) - 1
    (s.params.posOverflow = .wrap ∨ inRange →
      exec .accumulate s = .next
        { s with
          history := (sampleCore s).2.history, subStep := (sampleCore s).2.subStep
          position := BitVec.ofInt s.params.posWidth r, result := some (BitVec.ofInt s.params.posWidth r) }) ∧
    (s.params.posOverflow = .fault → ¬inRange → exec .accumulate s = .fault .positionOverflow) ∧
    ((sampleCore s).1 = .zero →
      exec .accumulate s = .next
        { s with
          history := (sampleCore s).2.history, subStep := (sampleCore s).2.subStep, result := some s.position }) ∧
    ∀ t, exec .accumulate s = .next t → exec .readPos t = .next t

/-- UPDATE (40_sampling.md R60): ACCUMULATE's final state with no result, and ACCUMULATE's fault. -/
def Obligations.UpdateCommand : Prop :=
  encode .update = 0b011#3 ∧
  (∀ s : State,
    let r : Int := s.position.toInt + (sampleCore s).1.toInt
    let inRange : Prop := -(2 ^ (s.params.posWidth - 1)) ≤ r ∧ r ≤ 2 ^ (s.params.posWidth - 1) - 1
    (s.params.posOverflow = .wrap ∨ inRange →
      exec .update s = .next
        { s with
          history := (sampleCore s).2.history, subStep := (sampleCore s).2.subStep
          position := BitVec.ofInt s.params.posWidth r, result := none }) ∧
    (s.params.posOverflow = .fault → ¬inRange → exec .update s = .fault .positionOverflow)) ∧
  ∀ s t : State, exec .accumulate s = .next t → exec .update s = .next { t with result := none }

/-- PosAdd (10_state.md R23): `wrap` adds modulo 2^POS_WIDTH, `fault` stops outside the signed range, and at the two
extremes `wrap` goes round. -/
def Obligations.PosAddRule : Prop :=
  (∀ (s : State) (st : Delta),
    let r : Int := s.position.toInt + st.toInt
    let outside : Prop := r > 2 ^ (s.params.posWidth - 1) - 1 ∨ r < -(2 ^ (s.params.posWidth - 1))
    (s.params.posOverflow = .wrap →
      posAdd st s = .next { s with position := BitVec.ofInt s.params.posWidth r }) ∧
    (s.params.posOverflow = .fault → outside → posAdd st s = .fault .positionOverflow) ∧
    (s.params.posOverflow = .fault → ¬outside →
      posAdd st s = .next { s with position := BitVec.ofInt s.params.posWidth r }) ∧
    ((BitVec.ofInt s.params.posWidth r).toNat : Int) = r % 2 ^ s.params.posWidth) ∧
  ∀ (w : Nat) (p : BitVec w), 2 ≤ w →
    (p.toInt = 2 ^ (w - 1) - 1 → (BitVec.ofInt w (p.toInt + 1)).toInt = -(2 ^ (w - 1))) ∧
    (p.toInt = -(2 ^ (w - 1)) → (BitVec.ofInt w (p.toInt - 1)).toInt = 2 ^ (w - 1) - 1)

/-- The one fault a command can raise, and exactly when (60_exceptions.md R67). -/
def Obligations.OnlyFaultIsPositionOverflow : Prop :=
  ∀ (i : Instr) (s : State) (r : Fault), exec i s = .fault r ↔
    r = .positionOverflow ∧ s.params.posOverflow = .fault ∧ (i = .accumulate ∨ i = .update) ∧
      (s.position.toInt + (sampleCore s).1.toInt > 2 ^ (s.params.posWidth - 1) - 1 ∨
        s.position.toInt + (sampleCore s).1.toInt < -(2 ^ (s.params.posWidth - 1)))

/-- Under `wrap`, which is this hardware, every command completes in every state (60_exceptions.md R66, 90_conflicts.md
C8), and no command is refused under either. -/
def Obligations.EveryCommandCompletesUnderWrap : Prop :=
  (∀ (i : Instr) (s : State), s.params.posOverflow = .wrap → ∃ t, exec i s = .next t) ∧
  ∀ (i : Instr) (s : State) (r : Refusal), exec i s ≠ .refused r

/-- No-change and invalid samples count nothing (40_sampling.md R57, first two cases): `subStep` stays, nothing is
emitted, `position` stays, and the command completes under either overflow mode. -/
def Obligations.UncountedSamplesChangeNothing : Prop :=
  ∀ s : State, s.subStep.Legal →
    (s.currentSample ^^^ s.newSample = 0b00#2 ∨ s.currentSample ^^^ s.newSample = 0b11#2) →
    sampleCore s = (.zero, { s with history := s.currentSample ++ s.newSample }) ∧
    exec .accumulate s = .next { s with history := s.currentSample ++ s.newSample, result := some s.position } ∧
    exec .update s = .next { s with history := s.currentSample ++ s.newSample, result := none }

/-- "Repeated no-change samples ... must never alter `subStep` or `position`, for any number of repetitions"
(40_sampling.md R57), whichever sampling commands take them. -/
def Obligations.RepeatedNoChangeNeverCounts : Prop :=
  ∀ (is : List Instr) (s : State), (∀ i ∈ is, i.isSampling = true) → s.subStep.Legal →
    ∃ t, performs (is.map fun i => (i, s.currentSample.getLsbD 1, s.currentSample.getLsbD 0)) s = .next t ∧
      t.subStep = s.subStep ∧ t.position.toInt = s.position.toInt ∧ t.currentSample = s.currentSample

/-- Direction reversal (40_sampling.md R57, 70_reset_and_hazards.md R85): away from the thresholds, a sample and the return
from it leave `subStep` as it was, whatever the levels. -/
def Obligations.ReturnedSampleCancels : Prop :=
  ∀ (s : State) (x y : Bool), -2 ≤ s.subStep.toInt → s.subStep.toInt ≤ 2 →
    ∃ t, performs [(.sample, x, y), (.sample, s.currentSample.getLsbD 1, s.currentSample.getLsbD 0)] s = .next t ∧
      t.subStep = s.subStep ∧ t.currentSample = s.currentSample ∧ t.position.toInt = s.position.toInt

/-- The first sampling command after a reset (40_sampling.md R57, fifth case; 70_reset_and_hazards.md R86). -/
def Obligations.FirstSampleAfterReset : Prop :=
  ∀ s : State, s.history = 0b0011#4 →
    (s.newSample = 0b11#2 → sampledHistory s = 0b1111#4 ∧ lookedUp s = .zero) ∧
    (s.newSample = 0b01#2 → sampledHistory s = 0b1101#4 ∧ lookedUp s = .plusOne) ∧
    (s.newSample = 0b10#2 → sampledHistory s = 0b1110#4 ∧ lookedUp s = .minusOne) ∧
    (s.newSample = 0b00#2 → sampledHistory s = 0b1100#4 ∧ lookedUp s = .zero)

/-- One full cycle emits one step with no residue (20_memory.md R34, 40_sampling.md R57): four ACCUMULATEs along the forward
cycle from any sample and `subStep = 0` add 1 to `position`, along the reverse cycle -1. -/
def Obligations.FullCycleCountsOneDetent : Prop :=
  ∀ s : State, s.params.posOverflow = .wrap → s.subStep = 0#4 →
    (∃ t, performs (turning forwardNext .accumulate 4 s.currentSample) s = .next t ∧
      t.subStep = 0#4 ∧ t.currentSample = s.currentSample ∧
      (2 ^ s.params.posWidth : Int) ∣ t.position.toInt - (s.position.toInt + 1)) ∧
    ∃ t, performs (turning reverseNext .accumulate 4 s.currentSample) s = .next t ∧
      t.subStep = 0#4 ∧ t.currentSample = s.currentSample ∧
      (2 ^ s.params.posWidth : Int) ∣ t.position.toInt - (s.position.toInt - 1)

/-- Turning the encoder `n` transitions in one direction counts `n / 4` detents and keeps `n % 4` sub-steps, for every
`n` and from every sample (40_sampling.md R56, R57; 20_memory.md R34; 10_state.md R23). -/
def Obligations.TurningCountsDetents : Prop :=
  ∀ (n : Nat) (s : State), s.params.posOverflow = .wrap → s.subStep = 0#4 →
    (∃ t, performs (turning forwardNext .update n s.currentSample) s = .next t ∧
      t.subStep.toInt = (n % 4 : Nat) ∧
      (2 ^ s.params.posWidth : Int) ∣ t.position.toInt - (s.position.toInt + (n / 4 : Nat))) ∧
    ∃ t, performs (turning reverseNext .update n s.currentSample) s = .next t ∧
      t.subStep.toInt = -((n % 4 : Nat) : Int) ∧
      (2 ^ s.params.posWidth : Int) ∣ t.position.toInt - (s.position.toInt - (n / 4 : Nat))

/-- The detent account of 10_state.md R31, over every command sequence with no SAMPLE and no RESET_POS: the account moves
by the sum of the deltas looked up, modulo what a wrap of `position` loses, and exactly with no wrap in between. Right after
a reset the account is 0. -/
def Obligations.DetentAccountTracksDeltas : Prop :=
  ∀ (cs : List (Instr × Bool × Bool)) (s t : State),
    (∀ c ∈ cs, c.1 ≠ .sample ∧ c.1 ≠ .resetPos) → s.subStep.Legal → performs cs s = .next t →
    t.subStep.Legal ∧ t.pinAId.toNat = s.pinAId.toNat ∧ t.pinBId.toNat = s.pinBId.toNat ∧
    (4 * 2 ^ s.params.posWidth : Int) ∣ t.account - (s.account + deltaSum cs s) ∧
    (1 ≤ s.params.posWidth → neverWraps cs s = true → t.account = s.account + deltaSum cs s)

/-! ## The position commands -/

/-- READ_POS (41_position.md R61): `position` as the result, nothing else; twice it gives the same, after ACCUMULATE it
gives ACCUMULATE's result, after RESET_POS it gives 0. -/
def Obligations.ReadPosCommand : Prop :=
  encode .readPos = 0b100#3 ∧
  (∀ s : State, exec .readPos s = .next { s with result := some s.position }) ∧
  (∀ s t : State, exec .readPos s = .next t → exec .readPos t = .next t) ∧
  (∀ s t : State, exec .accumulate s = .next t → exec .readPos t = .next t) ∧
  ∀ s t : State, exec .resetPos s = .next t → exec .readPos t = .next { t with result := some 0#t.params.posWidth }

/-- RESET_POS (41_position.md R62): `position` alone is cleared, no result; twice it has the effect of once; the step a
following sampling command emits is the one it would have emitted; every other command changes `position` by at most one
step, modulo 2^POS_WIDTH. -/
def Obligations.ResetPosCommand : Prop :=
  encode .resetPos = 0b101#3 ∧
  (∀ s : State, exec .resetPos s = .next { s with position := 0#s.params.posWidth, result := none }) ∧
  (∀ s t : State, exec .resetPos s = .next t → exec .resetPos t = .next t) ∧
  (∀ s t : State, exec .resetPos s = .next t → ∀ (i : Instr) (x y : Bool),
    (sampleCore (t.offer i x y)).1 = (sampleCore (s.offer i x y)).1 ∧
    (sampleCore (t.offer i x y)).2.subStep = (sampleCore (s.offer i x y)).2.subStep) ∧
  ∀ (i : Instr) (s t : State), i ≠ .resetPos → exec i s = .next t →
    ∃ d : Delta, (2 ^ s.params.posWidth : Int) ∣ t.position.toInt - (s.position.toInt + d.toInt)

/-- RESET_POS in the middle of a detent (41_position.md R62, 70_reset_and_hazards.md R88): whatever is performed next,
RESET_POS apart, ends with the history and sub-steps it would have had, and with `position` lower by what was cleared. -/
def Obligations.ResetPosOnlyShiftsTheCount : Prop :=
  ∀ (cs : List (Instr × Bool × Bool)) (s : State), (∀ c ∈ cs, c.1 ≠ .resetPos) → s.params.posOverflow = .wrap →
    ∃ t u, performs cs s = .next t ∧ andThen (exec .resetPos s) (performs cs) = .next u ∧
      u.history = t.history ∧ u.subStep = t.subStep ∧
      (2 ^ s.params.posWidth : Int) ∣ t.position.toInt - (u.position.toInt + s.position.toInt)

/-- Which commands write `position`, and how (10_state.md R24): ACCUMULATE and UPDATE add the emitted step, modulo
2^POS_WIDTH, and exactly where a wrap would fault; RESET_POS writes 0; no other command writes it. -/
def Obligations.OnlyThreeCommandsWritePosition : Prop :=
  ∀ (i : Instr) (s t : State), exec i s = .next t →
    (i = .accumulate ∨ i = .update →
      (2 ^ s.params.posWidth : Int) ∣ t.position.toInt - (s.position.toInt + (sampleCore s).1.toInt) ∧
      (s.params.posOverflow = .fault → 1 ≤ s.params.posWidth →
        t.position.toInt = s.position.toInt + (sampleCore s).1.toInt)) ∧
    (i = .resetPos → t.position.toInt = 0) ∧
    (i ≠ .accumulate → i ≠ .update → i ≠ .resetPos → t.position.toInt = s.position.toInt)

/-! ## Identity, idle, results and frames -/

/-- PIN_A_ID (42_identity_and_idle.md R63): the identifier of channel A, zero-extended, nothing else; the same whatever
command is performed in between. -/
def Obligations.PinAIdCommand : Prop :=
  encode .pinAId = 0b110#3 ∧
  (∀ s : State, ∃ word : BitVec s.params.posWidth, exec .pinAId s = .next { s with result := some word } ∧
    word = s.pinAId.zeroExtend s.params.posWidth ∧
    (s.params.pinIdWidth ≤ s.params.posWidth → word.toNat = s.pinAId.toNat)) ∧
  ∀ (i : Instr) (s t : State), exec i s = .next t → t.pinAId.toNat = s.pinAId.toNat

/-- PIN_B_ID (42_identity_and_idle.md R64): the identifier of channel B, zero-extended, nothing else; the same whatever
command is performed in between. -/
def Obligations.PinBIdCommand : Prop :=
  encode .pinBId = 0b111#3 ∧
  (∀ s : State, ∃ word : BitVec s.params.posWidth, exec .pinBId s = .next { s with result := some word } ∧
    word = s.pinBId.zeroExtend s.params.posWidth ∧
    (s.params.pinIdWidth ≤ s.params.posWidth → word.toNat = s.pinBId.toNat)) ∧
  ∀ (i : Instr) (s t : State), exec i s = .next t → t.pinBId.toNat = s.pinBId.toNat

/-- NOP (42_identity_and_idle.md R65): no register is written and there is no result; before a sampling command it is
invisible. -/
def Obligations.NopCommand : Prop :=
  encode .nop = 0b000#3 ∧
  (∀ s : State, exec .nop s = .next { s with result := none }) ∧
  ∀ s t : State, exec .nop s = .next t → ∀ (i : Instr) (x y : Bool), i.isSampling = true →
    exec i (t.offer i x y) = exec i (s.offer i x y)

/-- The result port of every command (30_encoding.md R53): which have a result, and what it reads as. -/
def Obligations.ResultPortOfEveryCommand : Prop :=
  ∀ (i : Instr) (s t : State), exec i s = .next t →
    (t.rvalid = true ↔ i = .sample ∨ i = .accumulate ∨ i = .readPos ∨ i = .pinAId ∨ i = .pinBId) ∧
    (i = .sample → t.result = some ((sampleCore s).1.code.signExtend t.params.posWidth)) ∧
    (i = .accumulate ∨ i = .readPos → t.result = some t.position) ∧
    (i = .pinAId → t.result = some (t.pinAId.zeroExtend t.params.posWidth)) ∧
    (i = .pinBId → t.result = some (t.pinBId.zeroExtend t.params.posWidth)) ∧
    (2 ≤ t.params.posWidth → i = .sample → t.result.map BitVec.toInt = some (sampleCore s).1.toInt) ∧
    (t.params.pinIdWidth ≤ t.params.posWidth →
      (i = .pinAId → t.result.map BitVec.toNat = some t.pinAId.toNat) ∧
      (i = .pinBId → t.result.map BitVec.toNat = some t.pinBId.toNat))

/-- SAMPLE's word is `0...01`, `0...00` or `1...11` and reads as the step (30_encoding.md R53, R54). -/
def Obligations.SampleResultWords : Prop :=
  ∀ w : Nat, 2 ≤ w →
    stepWord w .plusOne = 1#w ∧ stepWord w .zero = 0#w ∧ stepWord w .minusOne = BitVec.allOnes w ∧
    ∀ st : Delta, (stepWord w st).toInt = st.toInt

/-- The frame of every command: only `history`, `subStep`, `position` and the result port are ever written; `history` and
`subStep` by the sampling commands alone, `position` by ACCUMULATE, UPDATE and RESET_POS alone (10_state.md R15, R24,
R26; 20_memory.md R41). -/
def Obligations.CommandFrame : Prop :=
  ∀ (i : Instr) (s t : State), exec i s = .next t →
    ∃ (h : History) (v : SubStep) (p : BitVec s.params.posWidth) (r : Option (BitVec s.params.posWidth)),
      t = { s with history := h, subStep := v, position := p, result := r } ∧
      (i.isSampling = false → h = s.history ∧ v = s.subStep) ∧
      (i ≠ .accumulate → i ≠ .update → i ≠ .resetPos → p = s.position)

/-- No command but a sampling command reads a channel level (20_memory.md R37). -/
def Obligations.LevelsReachOnlySamplingCommands : Prop :=
  ∀ (i : Instr) (s : State) (x y : Bool), i.isSampling = false →
    exec i (s.withLevels x y) = andThen (exec i s) fun t => .next (t.withLevels x y)

/-! ## Observation, order and instances -/

/-- Between commands `history[3:2]` is not observable at all (10_state.md R30, 90_conflicts.md C9): no command sequence gives
a result that depends on it. -/
def Obligations.OlderSampleIsUnobservable : Prop :=
  ∀ (cs : List (Instr × Bool × Bool)) (s : State) (h : History), h.extractLsb' 0 2 = s.currentSample →
    observed cs { s with history := h } = observed cs s

/-- "Two states that differ in `history[1:0]` or in `subStep` are distinguishable by a sequence of SAMPLE commands"
(10_state.md R30). -/
def Obligations.HiddenStateIsDistinguishable : Prop :=
  ∀ s t : State, 2 ≤ s.params.posWidth → 2 ≤ t.params.posWidth → s.subStep.Legal → t.subStep.Legal →
    (s.currentSample ≠ t.currentSample ∨ s.subStep ≠ t.subStep) →
    ∃ levels : List (Bool × Bool),
      observed (levels.map fun l => (.sample, l.1, l.2)) s ≠ observed (levels.map fun l => (.sample, l.1, l.2)) t

/-- The machine's run over pending commands is the sequential composition of those commands in issue order
(20_memory.md R43, R44): `n` steps over `n` presented commands end with the registers that performing them in order
gives, or with its fault. The fields of the feed (port, pending, drawn) are the model's own (log 1). -/
def Obligations.RunIsSequentialComposition : Prop :=
  ∀ (c : Instr × Bool × Bool) (cs : List (Instr × Bool × Bool)) (s : State) (ida idb : BitVec s.params.pinIdWidth),
    s.constructed = true → s.port = commandInputs ida idb c → s.pending = cs.map (commandInputs ida idb) →
    (∀ t, performs (c :: cs) s = .next t →
      ∃ (port : Inputs t.params.pinIdWidth) (drawn : Nat),
        run (cs.length + 1) s = .next { t with port := port, pending := [], drawn := drawn }) ∧
    ∀ r, performs (c :: cs) s = .fault r → run (cs.length + 1) s = .fault r

/-- A step of one decoder leaves every other decoder of the platform as it is, and is that decoder's own step
(60_exceptions.md R76; the platform is the model's, log 12, and so is that a fault has no next platform, log 18). A step that
is no reset always completes when the decoder's own step does; a reset completes where it binds no pin another decoder
holds. -/
def Obligations.InstancesAreIndependent : Prop :=
  ∀ (ds : List State) (k : Nat) (d t : State), exclusivePins ds = true → ds[k]? = some d → step d = .next t →
    d.stepKind ≠ .reset ∨ exclusivePins (replaceAt ds k t) = true →
    ∃ es, platformStep ds k = .next es ∧ es.length = ds.length ∧ es[k]? = some t ∧
      ∀ j, j ≠ k → es[j]? = ds[j]?

/-- A platform that binds two decoders to one pin is refused, whichever decoder would step, and so is the step that would
bind a decoder to a pin another one holds (60_exceptions.md R76, 20_memory.md R38; the platform is the model's, log 12,
log 17). -/
def Obligations.SharedPinIsRefused : Prop :=
  (∀ (ds : List State) (k i j : Nat) (d e : State) (pin : Nat), i ≠ j → ds[i]? = some d → ds[j]? = some e →
    d.constructed = true → e.constructed = true →
    (pin = d.pinAId.toNat ∨ pin = d.pinBId.toNat) → (pin = e.pinAId.toNat ∨ pin = e.pinBId.toNat) →
    platformStep ds k = .refused .sharedPin) ∧
  ∀ (ds : List State) (k j : Nat) (d t e : State) (pin : Nat), j ≠ k → ds[k]? = some d → step d = .next t →
    ds[j]? = some e → t.constructed = true → e.constructed = true →
    (pin = t.pinAId.toNat ∨ pin = t.pinBId.toNat) → (pin = e.pinAId.toNat ∨ pin = e.pinBId.toNat) →
    platformStep ds k = .refused .sharedPin

/-- No step leads to a platform that binds two decoders to one pin (20_memory.md R38, 60_exceptions.md R76): in every next
platform two different constructed decoders have no identifier in common (log 12, log 17). -/
def Obligations.PlatformStaysExclusive : Prop :=
  ∀ (ds es : List State) (k : Nat), platformStep ds k = .next es →
    exclusivePins es = true ∧
    ∀ (i j : Nat) (d e : State), i ≠ j → es[i]? = some d → es[j]? = some e →
      d.constructed = true → e.constructed = true →
      d.pinAId.toNat ≠ e.pinAId.toNat ∧ d.pinAId.toNat ≠ e.pinBId.toNat ∧
      d.pinBId.toNat ≠ e.pinAId.toNat ∧ d.pinBId.toNat ≠ e.pinBId.toNat
end

