-- ==== Sys2Proof/Laws/State.lean ====
section
/-! SUPPORT. What each update of the state leaves in each field, one lemma per field and update, so that no later
proof unfolds a record update. -/

namespace Sys2Proof.Machine

variable (s : State)

@[simp] theorem State.setSampler_params (h : History) (v : SubStep) :
    (s.setSampler h v).params = s.params := rfl
@[simp] theorem State.setSampler_history (h : History) (v : SubStep) :
    (s.setSampler h v).history = h := rfl
@[simp] theorem State.setSampler_subStep (h : History) (v : SubStep) :
    (s.setSampler h v).subStep = v := rfl
@[simp] theorem State.setSampler_position (h : History) (v : SubStep) :
    (s.setSampler h v).position = s.position := rfl
@[simp] theorem State.setSampler_pinAId (h : History) (v : SubStep) :
    (s.setSampler h v).pinAId = s.pinAId := rfl
@[simp] theorem State.setSampler_pinBId (h : History) (v : SubStep) :
    (s.setSampler h v).pinBId = s.pinBId := rfl
@[simp] theorem State.setSampler_puA (h : History) (v : SubStep) :
    (s.setSampler h v).puA = s.puA := rfl
@[simp] theorem State.setSampler_puB (h : History) (v : SubStep) :
    (s.setSampler h v).puB = s.puB := rfl
@[simp] theorem State.setSampler_result (h : History) (v : SubStep) :
    (s.setSampler h v).result = s.result := rfl
@[simp] theorem State.setSampler_constructed (h : History) (v : SubStep) :
    (s.setSampler h v).constructed = s.constructed := rfl
@[simp] theorem State.setSampler_port (h : History) (v : SubStep) :
    (s.setSampler h v).port = s.port := rfl
@[simp] theorem State.setSampler_pending (h : History) (v : SubStep) :
    (s.setSampler h v).pending = s.pending := rfl
@[simp] theorem State.setSampler_drawn (h : History) (v : SubStep) :
    (s.setSampler h v).drawn = s.drawn := rfl

@[simp] theorem State.setPosition_params (p : BitVec s.params.posWidth) :
    (s.setPosition p).params = s.params := rfl
@[simp] theorem State.setPosition_history (p : BitVec s.params.posWidth) :
    (s.setPosition p).history = s.history := rfl
@[simp] theorem State.setPosition_subStep (p : BitVec s.params.posWidth) :
    (s.setPosition p).subStep = s.subStep := rfl
@[simp] theorem State.setPosition_position (p : BitVec s.params.posWidth) :
    (s.setPosition p).position = p := rfl
@[simp] theorem State.setPosition_pinAId (p : BitVec s.params.posWidth) :
    (s.setPosition p).pinAId = s.pinAId := rfl
@[simp] theorem State.setPosition_pinBId (p : BitVec s.params.posWidth) :
    (s.setPosition p).pinBId = s.pinBId := rfl
@[simp] theorem State.setPosition_puA (p : BitVec s.params.posWidth) :
    (s.setPosition p).puA = s.puA := rfl
@[simp] theorem State.setPosition_puB (p : BitVec s.params.posWidth) :
    (s.setPosition p).puB = s.puB := rfl
@[simp] theorem State.setPosition_result (p : BitVec s.params.posWidth) :
    (s.setPosition p).result = s.result := rfl
@[simp] theorem State.setPosition_constructed (p : BitVec s.params.posWidth) :
    (s.setPosition p).constructed = s.constructed := rfl
@[simp] theorem State.setPosition_port (p : BitVec s.params.posWidth) :
    (s.setPosition p).port = s.port := rfl
@[simp] theorem State.setPosition_pending (p : BitVec s.params.posWidth) :
    (s.setPosition p).pending = s.pending := rfl
@[simp] theorem State.setPosition_drawn (p : BitVec s.params.posWidth) :
    (s.setPosition p).drawn = s.drawn := rfl

@[simp] theorem State.setResult_params (r : Option (BitVec s.params.posWidth)) :
    (s.setResult r).params = s.params := rfl
@[simp] theorem State.setResult_history (r : Option (BitVec s.params.posWidth)) :
    (s.setResult r).history = s.history := rfl
@[simp] theorem State.setResult_subStep (r : Option (BitVec s.params.posWidth)) :
    (s.setResult r).subStep = s.subStep := rfl
@[simp] theorem State.setResult_position (r : Option (BitVec s.params.posWidth)) :
    (s.setResult r).position = s.position := rfl
@[simp] theorem State.setResult_pinAId (r : Option (BitVec s.params.posWidth)) :
    (s.setResult r).pinAId = s.pinAId := rfl
@[simp] theorem State.setResult_pinBId (r : Option (BitVec s.params.posWidth)) :
    (s.setResult r).pinBId = s.pinBId := rfl
@[simp] theorem State.setResult_puA (r : Option (BitVec s.params.posWidth)) :
    (s.setResult r).puA = s.puA := rfl
@[simp] theorem State.setResult_puB (r : Option (BitVec s.params.posWidth)) :
    (s.setResult r).puB = s.puB := rfl
@[simp] theorem State.setResult_result (r : Option (BitVec s.params.posWidth)) :
    (s.setResult r).result = r := rfl
@[simp] theorem State.setResult_constructed (r : Option (BitVec s.params.posWidth)) :
    (s.setResult r).constructed = s.constructed := rfl
@[simp] theorem State.setResult_port (r : Option (BitVec s.params.posWidth)) :
    (s.setResult r).port = s.port := rfl
@[simp] theorem State.setResult_pending (r : Option (BitVec s.params.posWidth)) :
    (s.setResult r).pending = s.pending := rfl
@[simp] theorem State.setResult_drawn (r : Option (BitVec s.params.posWidth)) :
    (s.setResult r).drawn = s.drawn := rfl

@[simp] theorem State.present_params (i : Inputs s.params.pinIdWidth) :
    (s.present i).params = s.params := rfl
@[simp] theorem State.present_history (i : Inputs s.params.pinIdWidth) :
    (s.present i).history = s.history := rfl
@[simp] theorem State.present_subStep (i : Inputs s.params.pinIdWidth) :
    (s.present i).subStep = s.subStep := rfl
@[simp] theorem State.present_position (i : Inputs s.params.pinIdWidth) :
    (s.present i).position = s.position := rfl
@[simp] theorem State.present_pinAId (i : Inputs s.params.pinIdWidth) :
    (s.present i).pinAId = s.pinAId := rfl
@[simp] theorem State.present_pinBId (i : Inputs s.params.pinIdWidth) :
    (s.present i).pinBId = s.pinBId := rfl
@[simp] theorem State.present_puA (i : Inputs s.params.pinIdWidth) :
    (s.present i).puA = s.puA := rfl
@[simp] theorem State.present_puB (i : Inputs s.params.pinIdWidth) :
    (s.present i).puB = s.puB := rfl
@[simp] theorem State.present_result (i : Inputs s.params.pinIdWidth) :
    (s.present i).result = s.result := rfl
@[simp] theorem State.present_constructed (i : Inputs s.params.pinIdWidth) :
    (s.present i).constructed = s.constructed := rfl
@[simp] theorem State.present_port (i : Inputs s.params.pinIdWidth) :
    (s.present i).port = i := rfl
@[simp] theorem State.present_pending (i : Inputs s.params.pinIdWidth) :
    (s.present i).pending = s.pending := rfl
@[simp] theorem State.present_drawn (i : Inputs s.params.pinIdWidth) :
    (s.present i).drawn = s.drawn := rfl

@[simp] theorem State.construct_params (x y : BitVec s.params.pinIdWidth) :
    (s.construct x y).params = s.params := rfl
@[simp] theorem State.construct_history (x y : BitVec s.params.pinIdWidth) :
    (s.construct x y).history = historyReset := rfl
@[simp] theorem State.construct_subStep (x y : BitVec s.params.pinIdWidth) :
    (s.construct x y).subStep = subStepReset := rfl
@[simp] theorem State.construct_position (x y : BitVec s.params.pinIdWidth) :
    (s.construct x y).position = positionReset s.params.posWidth := rfl
@[simp] theorem State.construct_pinAId (x y : BitVec s.params.pinIdWidth) :
    (s.construct x y).pinAId = x := rfl
@[simp] theorem State.construct_pinBId (x y : BitVec s.params.pinIdWidth) :
    (s.construct x y).pinBId = y := rfl
@[simp] theorem State.construct_puA (x y : BitVec s.params.pinIdWidth) :
    (s.construct x y).puA = pullUpReset := rfl
@[simp] theorem State.construct_puB (x y : BitVec s.params.pinIdWidth) :
    (s.construct x y).puB = pullUpReset := rfl
@[simp] theorem State.construct_result (x y : BitVec s.params.pinIdWidth) :
    (s.construct x y).result = none := rfl
@[simp] theorem State.construct_constructed (x y : BitVec s.params.pinIdWidth) :
    (s.construct x y).constructed = true := rfl
@[simp] theorem State.construct_port (x y : BitVec s.params.pinIdWidth) :
    (s.construct x y).port = s.port := rfl
@[simp] theorem State.construct_pending (x y : BitVec s.params.pinIdWidth) :
    (s.construct x y).pending = s.pending := rfl
@[simp] theorem State.construct_drawn (x y : BitVec s.params.pinIdWidth) :
    (s.construct x y).drawn = s.drawn := rfl

@[simp] theorem State.losePower_params :
    s.losePower.params = s.params := rfl
@[simp] theorem State.losePower_history :
    s.losePower.history = Config.powerUpHistory s.drawn := rfl
@[simp] theorem State.losePower_subStep :
    s.losePower.subStep = Config.powerUpSubStep s.drawn := rfl
@[simp] theorem State.losePower_position :
    s.losePower.position = Config.powerUpPosition s.params.posWidth s.drawn := rfl
@[simp] theorem State.losePower_pinAId :
    s.losePower.pinAId = Config.powerUpPinId .a s.params.pinIdWidth s.drawn := rfl
@[simp] theorem State.losePower_pinBId :
    s.losePower.pinBId = Config.powerUpPinId .b s.params.pinIdWidth s.drawn := rfl
@[simp] theorem State.losePower_puA :
    s.losePower.puA = Config.powerUpPullUp .a s.drawn := rfl
@[simp] theorem State.losePower_puB :
    s.losePower.puB = Config.powerUpPullUp .b s.drawn := rfl
@[simp] theorem State.losePower_result :
    s.losePower.result = none := rfl
@[simp] theorem State.losePower_constructed :
    s.losePower.constructed = false := rfl
@[simp] theorem State.losePower_port :
    s.losePower.port = s.port := rfl
@[simp] theorem State.losePower_pending :
    s.losePower.pending = s.pending := rfl
@[simp] theorem State.losePower_drawn :
    s.losePower.drawn = s.drawn + 1 := rfl

@[simp] theorem State.takeInputs_params :
    s.takeInputs.params = s.params := rfl
@[simp] theorem State.takeInputs_history :
    s.takeInputs.history = s.history := rfl
@[simp] theorem State.takeInputs_subStep :
    s.takeInputs.subStep = s.subStep := rfl
@[simp] theorem State.takeInputs_position :
    s.takeInputs.position = s.position := rfl
@[simp] theorem State.takeInputs_pinAId :
    s.takeInputs.pinAId = s.pinAId := rfl
@[simp] theorem State.takeInputs_pinBId :
    s.takeInputs.pinBId = s.pinBId := rfl
@[simp] theorem State.takeInputs_puA :
    s.takeInputs.puA = s.puA := rfl
@[simp] theorem State.takeInputs_puB :
    s.takeInputs.puB = s.puB := rfl
@[simp] theorem State.takeInputs_result :
    s.takeInputs.result = s.result := rfl
@[simp] theorem State.takeInputs_constructed :
    s.takeInputs.constructed = s.constructed := rfl
@[simp] theorem State.takeInputs_port :
    s.takeInputs.port = s.nextPort := rfl
@[simp] theorem State.takeInputs_pending :
    s.takeInputs.pending = s.pending.tail := rfl
@[simp] theorem State.takeInputs_drawn :
    s.takeInputs.drawn = if s.pending.isEmpty then s.drawn + 1 else s.drawn := rfl

@[simp] theorem State.presentWord_params (w : Nat) :
    (s.presentWord w).params = s.params := rfl
@[simp] theorem State.presentWord_history (w : Nat) :
    (s.presentWord w).history = s.history := rfl
@[simp] theorem State.presentWord_subStep (w : Nat) :
    (s.presentWord w).subStep = s.subStep := rfl
@[simp] theorem State.presentWord_position (w : Nat) :
    (s.presentWord w).position = s.position := rfl
@[simp] theorem State.presentWord_pinAId (w : Nat) :
    (s.presentWord w).pinAId = s.pinAId := rfl
@[simp] theorem State.presentWord_pinBId (w : Nat) :
    (s.presentWord w).pinBId = s.pinBId := rfl
@[simp] theorem State.presentWord_puA (w : Nat) :
    (s.presentWord w).puA = s.puA := rfl
@[simp] theorem State.presentWord_puB (w : Nat) :
    (s.presentWord w).puB = s.puB := rfl
@[simp] theorem State.presentWord_result (w : Nat) :
    (s.presentWord w).result = s.result := rfl
@[simp] theorem State.presentWord_constructed (w : Nat) :
    (s.presentWord w).constructed = true := rfl
@[simp] theorem State.presentWord_port (w : Nat) :
    (s.presentWord w).port = { s.port with powerLoss := false, rst := false, cmd := BitVec.ofNat 3 w } := rfl
@[simp] theorem State.presentWord_pending (w : Nat) :
    (s.presentWord w).pending = s.pending := rfl
@[simp] theorem State.presentWord_drawn (w : Nat) :
    (s.presentWord w).drawn = s.drawn := rfl

end Sys2Proof.Machine
end

