-- ==== Sys2Proof/Laws/Ops.lean ====
section
/-! SUPPORT. What each shared operation can do, said once: the threshold, SampleCore, PosAdd, and going on from an
answer. Later proofs cite these and do not unfold the operations. -/

namespace Sys2Proof.Machine

@[simp] theorem andThen_next (s : State) (f : State → Answer) : andThen (.next s) f = f s := rfl
@[simp] theorem andThen_fault (r : Fault) (f : State → Answer) : andThen (.fault r) f = .fault r := rfl
@[simp] theorem andThen_refused (r : Refusal) (f : State → Answer) : andThen (.refused r) f = .refused r := rfl

/-- Whatever goes on to a next state has passed through one. -/
theorem andThen_eq_next {o : Answer} {f : State → Answer} {t : State} (h : andThen o f = .next t) :
    ∃ u, o = .next u ∧ f u = .next t := by
  cases o with
  | next u => exact ⟨u, rfl, h⟩
  | fault r => exact Host.Outcome.noConfusion rfl rfl rfl (heq_of_eq h)
  | refused r => exact Host.Outcome.noConfusion rfl rfl rfl (heq_of_eq h)

@[simp] theorem toInt_plusOne : Delta.plusOne.toInt = 1 := rfl
@[simp] theorem toInt_zero : Delta.zero.toInt = 0 := rfl
@[simp] theorem toInt_minusOne : Delta.minusOne.toInt = -1 := rfl

theorem delta_bounds (d : Delta) : -1 ≤ d.toInt ∧ d.toInt ≤ 1 := by
  cases d <;> decide

/-- The threshold trigger, all three ways out (spec/40_sampling.md R56, step 5). -/
theorem threshold_cases (n : Int) :
    (3 < n ∧ emittedStep n = .plusOne ∧ storedSubStep n = 0#4) ∨
    (n < -3 ∧ emittedStep n = .minusOne ∧ storedSubStep n = 0#4) ∨
    (-3 ≤ n ∧ n ≤ 3 ∧ emittedStep n = .zero ∧ storedSubStep n = BitVec.ofInt 4 n) := by
  unfold storedSubStep emittedStep stepUpThreshold stepDownThreshold
  by_cases up : n > 3
  · exact .inl ⟨up, by simp [up]⟩
  · by_cases down : n < -3
    · exact .inr (.inl ⟨down, by simp [up, down]⟩)
    · exact .inr (.inr ⟨by omega, by omega, by simp [up, down]⟩)

/-- A 4-bit register holds every sum that is stored without an emission. -/
theorem toInt_ofInt_four {n : Int} (lo : -8 ≤ n) (hi : n ≤ 7) : (BitVec.ofInt 4 n).toInt = n := by
  rw [BitVec.toInt_ofInt, Int.bmod_def]
  split <;> omega

/-- What SampleCore stores in `subStep` is legal, whatever it held. -/
theorem storedSubStep_legal (n : Int) : (storedSubStep n).Legal := by
  rcases threshold_cases n with ⟨-, -, h⟩ | ⟨-, -, h⟩ | ⟨lo, hi, -, h⟩
  · rw [h]; decide
  · rw [h]; decide
  · rw [h]; unfold SubStep.Legal; rw [toInt_ofInt_four (by omega) (by omega)]; exact ⟨lo, hi⟩

/-- The sum is what is stored and four times what is emitted, when it starts from a legal value. -/
theorem threshold_account {v : SubStep} (legal : v.Legal) (d : Delta) :
    4 * (emittedStep (subStepSum v d)).toInt + (storedSubStep (subStepSum v d)).toInt = v.toInt + d.toInt := by
  have hd := delta_bounds d
  unfold SubStep.Legal at legal
  rcases threshold_cases (subStepSum v d) with ⟨lt, e, h⟩ | ⟨lt, e, h⟩ | ⟨lo, hi, e, h⟩
  · rw [e, h]; unfold subStepSum at lt; simp only [toInt_plusOne, BitVec.toInt_zero]; omega
  · rw [e, h]; unfold subStepSum at lt; simp only [toInt_minusOne, BitVec.toInt_zero]; omega
  · rw [e, h, toInt_ofInt_four (by omega) (by omega)]; simp [subStepSum]

/-- PosAdd, all it can answer (spec/10_state.md R23). -/
theorem posAdd_cases (st : Delta) (s : State) :
    (posAdd st s = .next (s.setPosition (BitVec.ofInt s.params.posWidth (s.position.toInt + st.toInt))) ∧
      (s.params.posOverflow = .wrap ∨
        outOfRange s.params.posWidth (s.position.toInt + st.toInt) = false)) ∨
    (posAdd st s = .fault .positionOverflow ∧ s.params.posOverflow = .fault ∧
      outOfRange s.params.posWidth (s.position.toInt + st.toInt) = true) := by
  unfold posAdd
  cases hm : s.params.posOverflow with
  | wrap => exact .inl ⟨rfl, .inl rfl⟩
  | fault =>
    cases hr : outOfRange s.params.posWidth (s.position.toInt + st.toInt) with
    | true => exact .inr ⟨by simp [hr], rfl, rfl⟩
    | false => exact .inl ⟨by simp [hr], .inr rfl⟩

end Sys2Proof.Machine
end

