-- ==== Sys2Proof/Laws/Exec.lean ====
section
/-! SUPPORT. What `exec` answers, as one state: the fields a command writes, and nothing else written. -/

namespace Sys2Proof.Machine

/-- The state after SampleCore and a position add that answers. -/
def State.sampledAndAdded (s : State) : State :=
  (s.setSampler (sampledHistory s) (storedSubStep (subStepSum s.subStep (lookedUp s)))).setPosition
    (BitVec.ofInt s.params.posWidth (s.position.toInt + (sampleStep s).toInt))

/-- ACCUMULATE and UPDATE: one next state, or the overflow fault. -/
theorem sampleAndAdd_cases (s : State) :
    (sampleAndAdd s = .next s.sampledAndAdded ∧
      (s.params.posOverflow = .wrap ∨
        outOfRange s.params.posWidth (s.position.toInt + (sampleStep s).toInt) = false)) ∨
    (sampleAndAdd s = .fault .positionOverflow ∧ s.params.posOverflow = .fault ∧
      outOfRange s.params.posWidth (s.position.toInt + (sampleStep s).toInt) = true) :=
  posAdd_cases (sampleStep s) _

/-- Every next state of a command is the old one with a new result, after at most a sampling, an add or a clear. -/
theorem exec_next_cases {i : Instr} {s t : State} (h : exec i s = .next t) :
    (∃ r, t = s.setResult r ∧ i.isSampling = false ∧ i ≠ .resetPos) ∨
    (i = .resetPos ∧ t = (s.setPosition (positionReset s.params.posWidth)).setResult none) ∨
    (i = .sample ∧ ∃ r, t =
      (s.setSampler (sampledHistory s) (storedSubStep (subStepSum s.subStep (lookedUp s)))).setResult r) ∨
    ((i = .accumulate ∨ i = .update) ∧ ∃ r, t = s.sampledAndAdded.setResult r) := by
  cases i with
  | nop => cases h; exact .inl ⟨none, rfl, rfl, by decide⟩
  | readPos => cases h; exact .inl ⟨_, rfl, rfl, by decide⟩
  | pinAId => cases h; exact .inl ⟨_, rfl, rfl, by decide⟩
  | pinBId => cases h; exact .inl ⟨_, rfl, rfl, by decide⟩
  | resetPos => cases h; exact .inr (.inl ⟨rfl, rfl⟩)
  | sample => cases h; exact .inr (.inr (.inl ⟨rfl, _, rfl⟩))
  | accumulate =>
    obtain ⟨u, hu, ht⟩ := andThen_eq_next h
    rcases sampleAndAdd_cases s with ⟨e, -⟩ | ⟨e, -⟩
    · rw [e] at hu; cases hu; cases ht; exact .inr (.inr (.inr ⟨.inl rfl, _, rfl⟩))
    · rw [e] at hu; cases hu
  | update =>
    obtain ⟨u, hu, ht⟩ := andThen_eq_next h
    rcases sampleAndAdd_cases s with ⟨e, -⟩ | ⟨e, -⟩
    · rw [e] at hu; cases hu; cases ht; exact .inr (.inr (.inr ⟨.inr rfl, _, rfl⟩))
    · rw [e] at hu; cases hu

/-- No command is refused. -/
theorem exec_not_refused (i : Instr) (s : State) (r : Refusal) : exec i s ≠ .refused r := by
  have add : ∀ f : State → State, andThen (sampleAndAdd s) (fun t => .next (f t)) ≠ .refused r := by
    intro f h
    rcases sampleAndAdd_cases s with ⟨e, -⟩ | ⟨e, -⟩ <;> rw [e] at h <;> cases h
  cases i with
  | accumulate => exact add _
  | update => exact add _
  | nop | sample | readPos | resetPos | pinAId | pinBId => intro h; cases h

end Sys2Proof.Machine
end

