-- ==== Sys2Proof/Laws/Feed.lean ====
section
/-! SUPPORT. What `exec` does does not depend on the feed of inputs beyond the two channel levels: one lemma gives every
answer of a command for every feed that presents the same levels. It is the inversion lemma for runs. -/

namespace Sys2Proof.Machine

/-- The same registers with another feed of inputs. -/
abbrev State.withFeed (s : State) (q : Inputs s.params.pinIdWidth) (f : List (Inputs s.params.pinIdWidth))
    (n : Nat) : State :=
  { s with port := q, pending := f, drawn := n }

/-- The state with the four fields a command may write. -/
abbrev State.wrote (s : State) (h : History) (v : SubStep) (p : BitVec s.params.posWidth)
    (r : Option (BitVec s.params.posWidth)) : State :=
  { s with history := h, subStep := v, position := p, result := r }

section
variable (s : State) {q : Inputs s.params.pinIdWidth} (f : List (Inputs s.params.pinIdWidth)) (n : Nat)

theorem sampleCore_withFeed (ha : q.aIn = s.port.aIn) (hb : q.bIn = s.port.bIn) :
    sampleCore (s.withFeed q f n) = (sampleStep s, (sampleCore s).2.withFeed q f n) := by
  have hist : sampledHistory (s.withFeed q f n) = sampledHistory s := by
    simp [sampledHistory, pinRead, ha, hb]
  simp [sampleCore, sampleStep, lookedUp, hist]

/-- The add after SampleCore answers alike for every feed with the same levels. -/
theorem sampleAndAdd_withFeed (ha : q.aIn = s.port.aIn) (hb : q.bIn = s.port.bIn) :
    (sampleAndAdd s = .next s.sampledAndAdded →
      sampleAndAdd (s.withFeed q f n) = .next (s.sampledAndAdded.withFeed q f n)) ∧
    (sampleAndAdd s = .fault .positionOverflow → sampleAndAdd (s.withFeed q f n) = .fault .positionOverflow) := by
  unfold sampleAndAdd
  rw [sampleCore_withFeed s f n ha hb]
  rcases posAdd_cases (sampleStep s) (sampleCore s).2 with ⟨e, c⟩ | ⟨e, m, o⟩ <;>
    rcases posAdd_cases (sampleStep s) ((sampleCore s).2.withFeed q f n) with ⟨e', c'⟩ | ⟨e', m', o'⟩
  · exact ⟨fun _ => e', fun h => (nomatch e.symm.trans h)⟩
  · rcases c with c | c
    · exact nomatch m'.symm.trans c
    · exact nomatch o'.symm.trans c
  · rcases c' with c | c
    · exact nomatch m.symm.trans c
    · exact nomatch o.symm.trans c
  · exact ⟨fun h => (nomatch e.symm.trans h), fun _ => e'⟩

end

/-- Every answer of a command: the same four fields written whatever the rest of the feed, or the overflow fault. -/
theorem exec_shape (i : Instr) (s : State) :
    (∃ h v p r, ∀ (q : Inputs s.params.pinIdWidth) (f : List (Inputs s.params.pinIdWidth)) (n : Nat),
      q.aIn = s.port.aIn → q.bIn = s.port.bIn →
        exec i (s.withFeed q f n) = .next ((s.wrote h v p r).withFeed q f n)) ∨
    (∀ (q : Inputs s.params.pinIdWidth) (f : List (Inputs s.params.pinIdWidth)) (n : Nat),
      q.aIn = s.port.aIn → q.bIn = s.port.bIn →
        exec i (s.withFeed q f n) = .fault .positionOverflow) := by
  cases i with
  | sample =>
    refine .inl ⟨(sampleCore s).2.history, (sampleCore s).2.subStep, s.position,
      some (stepWord s.params.posWidth (sampleStep s)), fun q f n ha hb => ?_⟩
    show Host.Outcome.next _ = _
    rw [sampleCore_withFeed s f n ha hb]
    rfl
  | accumulate =>
    rcases sampleAndAdd_cases s with ⟨e, -⟩ | ⟨e, -⟩
    · refine .inl ⟨s.sampledAndAdded.history, s.sampledAndAdded.subStep, s.sampledAndAdded.position,
        some s.sampledAndAdded.position, fun q f n ha hb => ?_⟩
      show andThen (sampleAndAdd (s.withFeed q f n)) _ = _
      rw [(sampleAndAdd_withFeed s f n ha hb).1 e]
      rfl
    · refine .inr fun q f n ha hb => ?_
      show andThen (sampleAndAdd (s.withFeed q f n)) _ = _
      rw [(sampleAndAdd_withFeed s f n ha hb).2 e]
      rfl
  | update =>
    rcases sampleAndAdd_cases s with ⟨e, -⟩ | ⟨e, -⟩
    · refine .inl ⟨s.sampledAndAdded.history, s.sampledAndAdded.subStep, s.sampledAndAdded.position, none,
        fun q f n ha hb => ?_⟩
      show andThen (sampleAndAdd (s.withFeed q f n)) _ = _
      rw [(sampleAndAdd_withFeed s f n ha hb).1 e]
      rfl
    · refine .inr fun q f n ha hb => ?_
      show andThen (sampleAndAdd (s.withFeed q f n)) _ = _
      rw [(sampleAndAdd_withFeed s f n ha hb).2 e]
      rfl
  | nop =>
    exact .inl ⟨s.history, s.subStep, s.position, none, fun _ _ _ _ _ => rfl⟩
  | readPos =>
    exact .inl ⟨s.history, s.subStep, s.position, some s.position, fun _ _ _ _ _ => rfl⟩
  | resetPos =>
    exact .inl ⟨s.history, s.subStep, positionReset s.params.posWidth, none, fun _ _ _ _ _ => rfl⟩
  | pinAId =>
    exact .inl ⟨s.history, s.subStep, s.position, some (pinIdWord s.params.posWidth s.pinAId), fun _ _ _ _ _ => rfl⟩
  | pinBId =>
    exact .inl ⟨s.history, s.subStep, s.position, some (pinIdWord s.params.posWidth s.pinBId), fun _ _ _ _ _ => rfl⟩

end Sys2Proof.Machine
end

