-- ==== Sys2Proof/Laws/PerInstr.lean ====
section
/-! SUPPORT. Statements made per command: the sampling family is the codes with bit 2 clear and not all bits clear
(spec/30_encoding.md R50). -/

namespace Sys2Proof.Laws.SamplingCode

/-- The command is in the sampling family exactly when its code says so. -/
def Statement (i : Instr) : Prop :=
  i.isSampling = true ↔ (encode i).getLsbD 2 = false ∧ encode i ≠ 0b000#3

theorem nop : Statement .nop := by unfold Statement; decide
theorem sample : Statement .sample := by unfold Statement; decide
theorem accumulate : Statement .accumulate := by unfold Statement; decide
theorem update : Statement .update := by unfold Statement; decide
theorem readPos : Statement .readPos := by unfold Statement; decide
theorem resetPos : Statement .resetPos := by unfold Statement; decide
theorem pinAId : Statement .pinAId := by unfold Statement; decide
theorem pinBId : Statement .pinBId := by unfold Statement; decide

end Sys2Proof.Laws.SamplingCode
end

