-- ==== Sys2Proof/Laws/Step.lean ====
section
/-! SUPPORT. What a step can do, said once. -/

namespace Sys2Proof.Machine

/-- Every next state of a step: after a loss of power, a reset, or a command; then the inputs are taken. -/
theorem step_next_cases {s t : State} (h : step s = .next t) :
    (s.stepKind = .powerLoss ∧ t = s.losePower.takeInputs) ∨
    (s.stepKind = .reset ∧ t = (s.construct s.port.idA s.port.idB).takeInputs) ∨
    (s.stepKind = .command ∧ ∃ u, exec s.fetch s = .next u ∧ t = u.takeInputs) := by
  unfold step at h
  cases hk : s.stepKind <;> rw [hk] at h
  · cases h; exact .inl ⟨rfl, rfl⟩
  · cases h; exact .inr (.inl ⟨rfl, rfl⟩)
  · cases h
  · obtain ⟨u, hu, ht⟩ := andThen_eq_next h
    cases ht; exact .inr (.inr ⟨rfl, u, hu, rfl⟩)

/-- A command is performed only by a constructed block. -/
theorem constructed_of_command {s : State} (h : s.stepKind = .command) : s.constructed = true := by
  unfold State.stepKind at h
  split at h
  · cases h
  · split at h
    · cases h
    · split at h
      · assumption
      · cases h

end Sys2Proof.Machine
end

