-- ==== Sys2Proof/Laws/Platform.lean ====
section
/-! SUPPORT. What replacing a decoder changes, which steps move a decoder's pins, and what a platform's step can do. -/

namespace Sys2Proof.Machine

theorem replaceAt_length (ds : List State) (k : Nat) (t : State) : (replaceAt ds k t).length = ds.length := by
  induction ds generalizing k with
  | nil => rfl
  | cons d rest ih => cases k <;> simp [replaceAt, ih]

theorem replaceAt_get_self {ds : List State} {k : Nat} (t : State) (hk : k < ds.length) :
    (replaceAt ds k t)[k]? = some t := by
  induction ds generalizing k with
  | nil => cases hk
  | cons d rest ih =>
    cases k with
    | zero => rfl
    | succ k => exact ih (Nat.lt_of_succ_lt_succ hk)

theorem replaceAt_get_other (ds : List State) {k j : Nat} (t : State) (hj : j ≠ k) :
    (replaceAt ds k t)[j]? = ds[j]? := by
  induction ds generalizing k j with
  | nil => rfl
  | cons d rest ih =>
    cases k <;> cases j
    · exact absurd rfl hj
    · rfl
    · rfl
    · exact ih fun h => hj (congrArg Nat.succ h)

@[simp] theorem takeInputs_pins (s : State) : s.takeInputs.pins = s.pins := rfl

/-- A command moves no pin (spec/10_state.md R26). -/
theorem exec_keeps_pins {i : Instr} {s t : State} (h : exec i s = .next t) : t.pins = s.pins := by
  rcases exec_next_cases h with ⟨r, rfl, -⟩ | ⟨-, rfl⟩ | ⟨-, r, rfl⟩ | ⟨-, r, rfl⟩ <;> rfl

/-- Only a reset binds a decoder to pins: any other step keeps its pins or, losing power, drops them. -/
theorem step_pins_of_not_reset {s t : State} (h : step s = .next t) (hr : s.stepKind ≠ .reset) :
    t.pins = s.pins ∨ t.pins = [] := by
  rcases step_next_cases h with ⟨-, rfl⟩ | ⟨hk, -⟩ | ⟨-, u, hu, rfl⟩
  · exact .inr rfl
  · exact absurd hk hr
  · exact .inl ((takeInputs_pins u).trans (exec_keeps_pins hu))

/-- Everything a platform's step can answer with a next list. -/
theorem platformStep_next_cases {ds es : List State} {k : Nat} (h : platformStep ds k = .next es) :
    exclusivePins ds = true ∧ exclusivePins es = true ∧
      (ds[k]? = none ∧ es = ds ∨ ∃ d t, ds[k]? = some d ∧ step d = .next t ∧ es = replaceAt ds k t) := by
  unfold platformStep at h
  split at h
  next he =>
    split at h
    next hn => cases h; exact ⟨he, he, .inl ⟨hn, rfl⟩⟩
    next d hd =>
      split at h
      next t ht =>
        unfold asPlatform at h
        split at h
        next hx => cases h; exact ⟨he, hx, .inr ⟨d, t, hd, ht, rfl⟩⟩
        next => cases h
      next => cases h
      next => cases h
  next => cases h

end Sys2Proof.Machine
end

