-- ==== Sys2Proof/Laws/Run.lean ====
section
/-! SUPPORT. The runs the statements speak of are the runs of the machine the host reads. -/

namespace Sys2Proof.Machine

theorem core_run_eq_run (k : Nat) (s : State) : core.run k s = run k s := by
  induction k generalizing s with
  | zero => rfl
  | succ k ih =>
    simp only [Host.Core.run, run]
    change _ = andThen (core.step s) _
    cases core.step s with
    | next t => exact ih t
    | fault r => rfl
    | refused r => rfl

end Sys2Proof.Machine
end

