-- ==== Sys2Proof/Tests/Slice0.lean ====
section
/-! SUPPORT. Tests of one step or one decoding each, with expected results from spec/95_test_vectors.md and the spec's
examples, and a witness for the hypotheses of every statement of Certificates/Slice0/Obligations.lean. -/

namespace Sys2Proof.Tests

open Sys2Proof Sys2Proof.Machine

/-- A constructed block as 95_test_vectors.md sections 2.4 and 2.7 build it: `POS_WIDTH = 8`, `PIN_ID_WIDTH = 4`,
identifiers 0xA and 0x3. -/
def bench (mode : OverflowMode) (h : History) (v : SubStep) (p : BitVec 8) : State where
  params := { posWidth := 8, pinIdWidth := 4, posOverflow := mode }
  history := h
  subStep := v
  position := p
  pinAId := 0xA#4
  pinBId := 0x3#4
  puA := true
  puB := true
  result := none
  constructed := true
  port := { powerLoss := false, rst := false, cmd := 0#3, aIn := true, bIn := true, idA := 5#4, idB := 6#4 }
  pending := [commandInputs 5#4 6#4 (.readPos, true, true)]
  drawn := 0

/-- The integers a step is judged by: history, subStep, position, result. -/
def seen (o : Answer) : Option (Nat × Int × Int × Option Int) :=
  match o with
  | .next t => some (t.history.toNat, t.subStep.toInt, t.position.toInt, t.result.map BitVec.toInt)
  | .fault _ => none
  | .refused _ => none

/-- A command with its levels, performed. -/
def one (i : Instr) (x y : Bool) (s : State) : Answer :=
  performs [(i, x, y)] s

/-! ## Ill-formed terms are refused -/

theorem test_posWidth_below_two_refused : ¬({ posWidth := 1, pinIdWidth := 1, posOverflow := .wrap } : Params).WellFormed := by
  decide
theorem test_pinIdWidth_zero_refused : ¬({ posWidth := 8, pinIdWidth := 0, posOverflow := .wrap } : Params).WellFormed := by
  decide
theorem test_pinIdWidth_above_posWidth_refused :
    ¬({ posWidth := 8, pinIdWidth := 9, posOverflow := .wrap } : Params).WellFormed := by decide
theorem test_subStep_four_refused : ¬SubStep.Legal 4#4 ∧ ¬SubStep.Legal (-4#4) := by decide
theorem test_wide_word_refused : decodeWide 8 0b1001 = .rejected .bitsAbovePort := by decide
theorem test_truncated_stream_refused : decodeStream [false, true, false, true] = .rejected .truncated := by decide
theorem test_delta_code_10_refused : Delta.ofCode 0b10#2 = none := by decide

/-! ## Decoding, by words written out from 30_encoding.md R50 -/

theorem test_decode_nop : decodeTableWord 8 0b000 = some .nop := by decide
theorem test_decode_sample : decodeTableWord 8 0b001 = some .sample := by decide
theorem test_decode_accumulate : decodeTableWord 8 0b010 = some .accumulate := by decide
theorem test_decode_update : decodeTableWord 8 0b011 = some .update := by decide
theorem test_decode_readPos : decodeTableWord 3 0b100 = some .readPos := by decide
theorem test_decode_resetPos : decodeTableWord 3 0b101 = some .resetPos := by decide
theorem test_decode_pinAId : decodeTableWord 3 0b110 = some .pinAId := by decide
theorem test_decode_pinBId : decodeTableWord 3 0b111 = some .pinBId := by decide

/-- 95_test_vectors.md, Program 1: "Encoding: `010 010 010 010 100`". -/
theorem test_program_encoding :
    encodeStream [.accumulate, .accumulate, .accumulate, .accumulate, .readPos] =
      [false, true, false, false, true, false, false, true, false, false, true, false, true, false, false] := by decide

/-! ## The sampling commands -/

/-- 95_test_vectors.md 2.1, all sixteen rows: from `subStep = 0`, SAMPLE leaves the table's delta. -/
theorem test_sample_table : ∀ p c : Sample,
    seen (one .sample (c.getLsbD 1) (c.getLsbD 0) (bench .wrap (0#2 ++ p) 0 9)) =
      some (4 * p.toNat + c.toNat,
        [0, -1, 1, 0, 1, 0, 0, -1, -1, 0, 0, 1, 0, 1, -1, 0].getD (4 * p.toNat + c.toNat) 9, 9, some 0) := by decide

/-- 95_test_vectors.md 2.5: the step is the result and `position` is left alone. -/
theorem test_sample_emits :
    seen (one .sample false true (bench .wrap 0b0011 3 9)) = some (0b1101, 0, 9, some 1) ∧
    seen (one .sample true false (bench .wrap 0b0011 (-3) 9)) = some (0b1110, 0, 9, some (-1)) := by decide

/-- 95_test_vectors.md 2.4: the wrap at both ends. -/
theorem test_accumulate_wraps :
    seen (one .accumulate false false (bench .wrap 0b0001 3 127)) = some (0b0100, 0, -128, some (-128)) ∧
    seen (one .accumulate false false (bench .wrap 0b0010 (-3) (-128))) = some (0b1000, 0, 127, some 127) := by decide

/-- 95_test_vectors.md 2.4: the fault, and no fault without an emission. -/
theorem test_accumulate_faults :
    (match one .accumulate false false (bench .fault 0b0001 3 127) with
      | .fault r => r == .positionOverflow | .next _ => false | .refused _ => false) = true ∧
    seen (one .accumulate false false (bench .fault 0b0001 2 127)) = some (0b0100, 3, 127, some 127) := by decide

/-- 95_test_vectors.md 2.4: UPDATE has no result. -/
theorem test_update_adds : seen (one .update false false (bench .wrap 0b0001 3 7)) = some (0b0100, 0, 8, none) := by decide

/-- 95_test_vectors.md 2.4: UPDATE faults as ACCUMULATE does. -/
theorem test_update_faults :
    (match one .update false false (bench .fault 0b0010 (-3) (-128)) with
      | .fault r => r == .positionOverflow | .next _ => false | .refused _ => false) = true := by decide

/-! ## The position, identity and idle commands -/

/-- 95_test_vectors.md 2.6. -/
theorem test_readPos_returns : seen (one .readPos false false (bench .wrap 0b1011 2 41)) = some (0b1011, 2, 41, some 41) := by
  decide
theorem test_readPos_negative : seen (one .readPos false false (bench .wrap 0b1011 2 (-1))) = some (0b1011, 2, -1, some (-1)) := by
  decide
theorem test_resetPos_clears : seen (one .resetPos false false (bench .wrap 0b1011 2 41)) = some (0b1011, 2, 0, none) := by
  decide
theorem test_resetPos_keeps_partial : seen (one .resetPos false false (bench .wrap 0b1011 (-3) 0)) = some (0b1011, -3, 0, none) := by
  decide

/-- 95_test_vectors.md 2.7: zero-extended, so 0x0A and not a negative number. -/
theorem test_pinAId_zero_extends : seen (one .pinAId true true (bench .wrap 3 0 0)) = some (3, 0, 0, some 0x0A) := by decide
theorem test_pinBId_returns : seen (one .pinBId true true (bench .wrap 3 0 0)) = some (3, 0, 0, some 0x03) := by decide
theorem test_nop_is_idle : seen (one .nop false false (bench .wrap 0b1000 (-2) 77)) = some (0b1000, -2, 77, none) := by decide

/-! ## Reset, power and the step -/

/-- `bench` with reset asserted beside a command. -/
def resetting : State :=
  let s := bench .wrap 0b1000 (-2) 44
  s.present { s.port with rst := true, cmd := 0b010#3 }

/-- 95_test_vectors.md 2.8: the reset event takes the identifiers 5 and 6 and wins over the command. -/
theorem test_reset_event :
    (match step resetting with
      | .next t => (t.history, t.subStep, t.position.toInt, t.pinAId.toNat, t.pinBId.toNat, t.puA && t.puB, t.rvalid)
      | .fault _ => (0, 0, 9, 0, 0, false, true)
      | .refused _ => (0, 0, 9, 0, 0, false, true)) = (0b0011#4, 0#4, 0, 5, 6, true, false) := by decide

/-- `bench` before its first reset. -/
def unconstructed : State := { bench .wrap 0b0011 0 0 with constructed := false }

/-- 70_reset_and_hazards.md R80. -/
theorem test_command_before_reset_stuck : step unconstructed = .fault .commandBeforeReset := rfl

/-- `bench` losing power. -/
def failing : State :=
  let s := bench .wrap 0b0011 0 0
  s.present { s.port with powerLoss := true }

/-- 60_exceptions.md R78. -/
theorem test_power_loss_awaits_reset :
    (match step failing with | .next t => t.constructed | .fault _ => true | .refused _ => true) = false := by decide

/-- Every command of the table runs as the first one after reset. -/
theorem test_every_word_runs_after_reset : ∀ w : Fin 8,
    (match step (State.reset.withFetchWord 8 w.val) with
      | .next _ => true | .fault _ => false | .refused _ => false) = true := by decide

/-! ## Witnesses: concrete states that meet the hypotheses of the statements -/

theorem witness_StepPerformsDecodedCommand : ∃ s : State, s.constructed = true ∧ s.port.powerLoss = false ∧ s.port.rst = false :=
  ⟨bench .wrap 3 0 0, by decide⟩
theorem witness_InputsAreTakenInOrder_pending : ∃ s : State, ∃ i rest, s.pending = i :: rest :=
  ⟨bench .wrap 3 0 0, _, _, rfl⟩
theorem witness_InputsAreTakenInOrder_drawn : ∃ s : State, s.pending = [] := ⟨State.reset, rfl⟩
theorem witness_PresentedWordIsPerformed :
    decodeTableWord 8 0b111 = some .pinBId ∧ decodeTableWord 3 0b000 = some .nop := by decide
theorem witness_ResetStep : resetting.port.powerLoss = false ∧ resetting.port.rst = true := by decide
theorem witness_CommandBeforeResetIsStuck :
    unconstructed.constructed = false ∧ unconstructed.port.powerLoss = false ∧ unconstructed.port.rst = false := by decide
theorem witness_CommandBeforeResetIsStuck_reset :
    let s : State := { resetting with constructed := false }
    s.constructed = false ∧ s.port.powerLoss = false ∧ s.port.rst = true := by decide
theorem witness_PowerLossLosesState : failing.port.powerLoss = true := by decide
theorem witness_BindingHeldBetweenResets : ∃ t, step (bench .wrap 3 0 0) = .next t ∧
    (bench .wrap 3 0 0).port.powerLoss = false ∧ (bench .wrap 3 0 0).port.rst = false := ⟨_, rfl, by decide⟩
theorem witness_InvariantKeptByEveryStep_command : (bench .wrap 3 3 0).Inv ∧ ∃ t, step (bench .wrap 3 3 0) = .next t :=
  ⟨by decide, _, rfl⟩
theorem witness_InvariantKeptByEveryStep_reset : resetting.Inv ∧ ∃ t, step resetting = .next t := ⟨by decide, _, rfl⟩
theorem witness_InvariantKeptByEveryStep_powerLoss : failing.Inv ∧ ∃ t, step failing = .next t := ⟨by decide, _, rfl⟩
theorem witness_SampleCoreProcedure : SubStep.Legal 3#4 ∧ SubStep.Legal (-3#4) := by decide

/-- The ranges of ACCUMULATE, UPDATE and PosAdd at the two ends of an 8-bit position: 127 + 0 is inside, 127 + 1 is not,
-128 + 0 is inside, -128 - 1 is not. -/
theorem witness_positionRange : ∀ st : Delta, ∀ p ∈ [127#8, -128#8],
    ((-(2 ^ (8 - 1)) ≤ p.toInt + st.toInt ∧ p.toInt + st.toInt ≤ 2 ^ (8 - 1) - 1) ↔
      ¬(p.toInt + st.toInt > 2 ^ (8 - 1) - 1 ∨ p.toInt + st.toInt < -(2 ^ (8 - 1)))) := by
  intro st p _; omega
theorem witness_AccumulateCommand_wrap : (bench .wrap 0b0001 3 127).params.posOverflow = .wrap := rfl
theorem witness_AccumulateCommand_inRange :
    let s := (bench .fault 0b0001 2 127).offer .accumulate false false
    s.params.posOverflow = .fault ∧ -(2 ^ (s.params.posWidth - 1)) ≤ s.position.toInt + (sampleCore s).1.toInt ∧
      s.position.toInt + (sampleCore s).1.toInt ≤ 2 ^ (s.params.posWidth - 1) - 1 := by decide
theorem witness_AccumulateCommand_fault :
    let s := (bench .fault 0b0001 3 127).offer .accumulate false false
    s.params.posOverflow = .fault ∧ ¬(-(2 ^ (s.params.posWidth - 1)) ≤ s.position.toInt + (sampleCore s).1.toInt ∧
      s.position.toInt + (sampleCore s).1.toInt ≤ 2 ^ (s.params.posWidth - 1) - 1) := by decide
theorem witness_UpdateCommand : ∃ t, exec .accumulate (bench .wrap 0b0001 3 127) = .next t := ⟨_, rfl⟩
theorem witness_UpdateCommand_fault :
    let s := (bench .fault 0b0010 (-3) (-128)).offer .update false false
    s.params.posOverflow = .fault ∧ ¬(-(2 ^ (s.params.posWidth - 1)) ≤ s.position.toInt + (sampleCore s).1.toInt ∧
      s.position.toInt + (sampleCore s).1.toInt ≤ 2 ^ (s.params.posWidth - 1) - 1) := by decide
theorem witness_PosAddRule_extremes : 2 ≤ 8 ∧ (127#8).toInt = 2 ^ (8 - 1) - 1 ∧ (-128#8).toInt = -(2 ^ (8 - 1)) := by decide
theorem witness_EveryCommandCompletesUnderWrap : (bench .wrap 3 0 0).params.posOverflow = .wrap := rfl
theorem witness_UncountedSamples_noChange :
    let s := (bench .fault 0b0011 3 127).offer .accumulate true true
    s.subStep.Legal ∧ s.currentSample ^^^ s.newSample = 0b00#2 := by decide
theorem witness_UncountedSamples_invalid :
    let s := (bench .fault 0b0011 (-3) (-128)).offer .accumulate false false
    s.subStep.Legal ∧ s.currentSample ^^^ s.newSample = 0b11#2 := by decide
theorem witness_RepeatedNoChange : (∀ i ∈ [Instr.sample, .accumulate, .update], i.isSampling = true) ∧
    (bench .fault 0b0010 2 5).subStep.Legal := by decide
theorem witness_ReturnedSampleCancels : -2 ≤ (bench .wrap 3 2 0).subStep.toInt ∧ (bench .wrap 3 (-2) 0).subStep.toInt ≤ 2 := by
  decide
theorem witness_FirstSampleAfterReset : ∀ x y : Bool, ((bench .wrap 0b0011 0 0).offer .sample x y).history = 0b0011#4 ∧
    ((bench .wrap 0b0011 0 0).offer .sample x y).newSample = BitVec.ofBool x ++ BitVec.ofBool y := by decide
theorem witness_FullCycle : (bench .wrap 0b0100 0 127).params.posOverflow = .wrap ∧ (bench .wrap 0b0100 0 127).subStep = 0#4 := by
  decide
theorem witness_TurningCountsDetents : (bench .wrap 0b1111 0 (-128)).params.posOverflow = .wrap ∧
    (bench .wrap 0b1111 0 (-128)).subStep = 0#4 := by decide
theorem witness_DetentAccount :
    let cs : List (Instr × Bool × Bool) := [(.update, false, true), (.nop, true, true)]
    (∀ c ∈ cs, c.1 ≠ .sample ∧ c.1 ≠ .resetPos) ∧ (bench .wrap 0b0011 3 126).subStep.Legal ∧
      (∃ t, performs cs (bench .wrap 0b0011 3 126) = .next t) ∧ neverWraps cs (bench .wrap 0b0011 3 126) = true ∧
      neverWraps cs (bench .wrap 0b0011 3 127) = false := ⟨by decide, by decide, ⟨_, rfl⟩, by decide, by decide⟩
theorem witness_AccumulateCommand_zeroStep : (sampleCore ((bench .fault 0b0011 3 127).offer .accumulate true true)).1 = .zero := by
  decide
theorem witness_ReadPosCommand : (∃ t, exec .readPos (bench .wrap 3 0 5) = .next t) ∧
    (∃ t, exec .accumulate (bench .wrap 3 0 5) = .next t) ∧ ∃ t, exec .resetPos (bench .wrap 3 0 5) = .next t :=
  ⟨⟨_, rfl⟩, ⟨_, rfl⟩, ⟨_, rfl⟩⟩
theorem witness_ResetPosOnlyShifts :
    (∀ c ∈ [(Instr.accumulate, false, true), (.sample, false, false)], c.1 ≠ .resetPos) ∧
      (bench .wrap 0b0011 2 41).params.posOverflow = .wrap := by decide
theorem witness_OnlyThreeCommandsWritePosition : ∀ i : Fin 8, ∃ t, exec (decode (BitVec.ofFin i)) (bench .fault 3 0 5) = .next t := by
  intro i; fin_cases i <;> exact ⟨_, rfl⟩
theorem witness_PinIdCommands : (bench .wrap 3 0 0).params.pinIdWidth ≤ (bench .wrap 3 0 0).params.posWidth := by decide
theorem witness_NopCommand : (∃ t, exec .nop (bench .wrap 3 0 5) = .next t) ∧ Instr.sample.isSampling = true := ⟨⟨_, rfl⟩, rfl⟩
theorem witness_LevelsReachOnlySamplingCommands : Instr.readPos.isSampling = false := rfl
theorem witness_OlderSampleIsUnobservable : (0b1110#4).extractLsb' 0 2 = (bench .wrap 0b0010 0 0).currentSample := by decide
theorem witness_HiddenStateIsDistinguishable :
    let s := bench .wrap 0b0011 3 0
    let t := bench .wrap 0b0011 2 0
    2 ≤ s.params.posWidth ∧ 2 ≤ t.params.posWidth ∧ s.subStep.Legal ∧ t.subStep.Legal ∧
      (s.currentSample ≠ t.currentSample ∨ s.subStep ≠ t.subStep) := by decide
theorem witness_RunIsSequentialComposition :
    let c : Instr × Bool × Bool := (.accumulate, false, true)
    let cs : List (Instr × Bool × Bool) := [(.readPos, true, true)]
    let s := (bench .wrap 0b0011 3 5).present (commandInputs 5#4 6#4 c)
    s.constructed = true ∧ s.port = commandInputs 5#4 6#4 c ∧ s.pending = cs.map (commandInputs 5#4 6#4) ∧
      ∃ t, performs (c :: cs) s = .next t := ⟨by decide, rfl, rfl, _, rfl⟩
theorem witness_RunIsSequentialComposition_fault :
    performs [(.accumulate, false, false), (.readPos, true, true)] (bench .fault 0b0001 3 127) = .fault .positionOverflow := rfl

/-- Another decoder, on other pins. -/
def neighbour : State := { bench .wrap 3 0 0 with pinAId := 0x1#4, pinBId := 0x2#4 }

theorem witness_InstancesAreIndependent : exclusivePins [bench .wrap 3 0 0, neighbour] = true ∧
    neighbour.stepKind ≠ .reset ∧ ∃ t, step neighbour = .next t := ⟨by decide, by decide, _, rfl⟩

/-- `resetting` takes the identifiers 5 and 6, which `neighbour` does not hold. -/
theorem witness_InstancesAreIndependent_reset : exclusivePins [neighbour, resetting] = true ∧
    ∃ t, step resetting = .next t ∧ exclusivePins (replaceAt [neighbour, resetting] 1 t) = true :=
  ⟨by decide, _, rfl, by decide⟩

/-- A decoder on the pins 5 and 6. -/
def holder : State := { bench .wrap 3 0 0 with pinAId := 0x5#4, pinBId := 0x6#4 }

/-- 60_exceptions.md R76: the reset that would bind a decoder to an owned pin is refused itself. -/
theorem test_binding_reset_refused : exclusivePins [holder, resetting] = true ∧
    platformStep [holder, resetting] 1 = .refused .sharedPin := ⟨by decide, rfl⟩

theorem witness_SharedPinIsRefused_binding : ∃ t, step resetting = .next t ∧ t.constructed = true ∧
    holder.constructed = true ∧ t.pinAId.toNat = 5 ∧ holder.pinAId.toNat = 5 := ⟨_, rfl, rfl, rfl, rfl, rfl⟩
theorem witness_PlatformStaysExclusive : ∃ es, platformStep [neighbour, bench .wrap 3 0 0] 0 = .next es ∧
    es.length = 2 := ⟨_, rfl, rfl⟩
theorem witness_SharedPinIsRefused : 0 ≠ 1 ∧ (bench .wrap 3 0 0).constructed = true ∧ (bench .wrap 3 0 0).pinAId.toNat = 0xA ∧
    platformStep [bench .wrap 3 0 0, bench .wrap 3 0 0] 1 = .refused .sharedPin := ⟨by decide, rfl, rfl, rfl⟩
theorem witness_SampleResultWords : (stepWord 2 .minusOne).toInt = -1 ∧ (stepWord 8 .minusOne) = 0xFF#8 := by decide
theorem witness_DecodeEncodeAgree : Instr.sample.wellFormed = true := rfl

end Sys2Proof.Tests
end

section
/-! SUPPORT. Which step the presented signals ask for, what a command keeps, and how each kind of step meets the
invariant of the block. -/

namespace Sys2Proof.Machine

/-! ## The kind of a step -/

theorem stepKind_eq_powerLoss_iff {s : State} : s.stepKind = .powerLoss ↔ s.port.powerLoss = true := by
  unfold State.stepKind
  cases s.port.powerLoss <;> cases s.port.rst <;> cases s.constructed <;> decide

theorem stepKind_eq_reset_iff {s : State} :
    s.stepKind = .reset ↔ s.port.powerLoss = false ∧ s.port.rst = true := by
  unfold State.stepKind
  cases s.port.powerLoss <;> cases s.port.rst <;> cases s.constructed <;> decide

/-! ## The feed -/

theorem nextPort_of_pending_cons {s : State} {i : Inputs s.params.pinIdWidth}
    {rest : List (Inputs s.params.pinIdWidth)} (h : s.pending = i :: rest) : s.nextPort = i := by
  simp [State.nextPort, h]

theorem nextPort_of_pending_nil {s : State} (h : s.pending = []) :
    s.nextPort = Inputs.free s.params.pinIdWidth s.drawn := by
  simp [State.nextPort, h]

/-! ## What a command keeps -/

/-- What construction fixes until the next reset is the same in `t` as in `s` (spec/10_state.md R26, R31;
spec/70_reset_and_hazards.md R81). The identifiers are compared as numbers, since their types name the state's widths. -/
structure State.SameBinding (s t : State) : Prop where
  params : t.params = s.params
  pinAId : t.pinAId.toNat = s.pinAId.toNat
  pinBId : t.pinBId.toNat = s.pinBId.toNat
  puA : t.puA = s.puA
  puB : t.puB = s.puB
  constructed : t.constructed = s.constructed

theorem exec_sameBinding {i : Instr} {s t : State} (h : exec i s = .next t) : s.SameBinding t := by
  rcases exec_next_cases h with ⟨r, rfl, -⟩ | ⟨-, rfl⟩ | ⟨-, r, rfl⟩ | ⟨-, r, rfl⟩ <;>
    exact ⟨rfl, rfl, rfl, rfl, rfl, rfl⟩

/-- A command leaves `subStep` alone or stores what the threshold trigger keeps (spec/40_sampling.md R56, step 5). -/
theorem exec_subStep {i : Instr} {s t : State} (h : exec i s = .next t) :
    t.subStep = s.subStep ∨ t.subStep = storedSubStep (subStepSum s.subStep (lookedUp s)) := by
  rcases exec_next_cases h with ⟨r, rfl, -⟩ | ⟨-, rfl⟩ | ⟨-, r, rfl⟩ | ⟨-, r, rfl⟩
  · exact .inl rfl
  · exact .inl rfl
  · exact .inr rfl
  · exact .inr rfl

theorem exec_keeps_subStep_legal {i : Instr} {s t : State} (legal : s.subStep.Legal) (h : exec i s = .next t) :
    t.subStep.Legal := by
  rcases exec_subStep h with e | e <;> rw [e]
  · exact legal
  · exact storedSubStep_legal _

/-! ## The invariant -/

/-- The invariant speaks of no field of the feed. -/
theorem takeInputs_inv {s : State} (h : s.Inv) : s.takeInputs.Inv := h

theorem losePower_inv {s : State} (wf : s.params.WellFormed) : s.losePower.Inv :=
  ⟨wf, fun h => nomatch h⟩

theorem subStepReset_legal : subStepReset.Legal := by decide

theorem construct_inv {s : State} (wf : s.params.WellFormed) (ida idb : BitVec s.params.pinIdWidth) :
    (s.construct ida idb).Inv :=
  ⟨wf, fun _ => ⟨subStepReset_legal, rfl, rfl⟩⟩

theorem exec_keeps_inv {i : Instr} {s t : State} (inv : s.Inv) (h : exec i s = .next t) : t.Inv := by
  obtain ⟨wf, held⟩ := inv
  have same := exec_sameBinding h
  refine ⟨same.params ▸ wf, fun hc => ?_⟩
  obtain ⟨legal, hA, hB⟩ := held (same.constructed ▸ hc)
  exact ⟨exec_keeps_subStep_legal legal h, same.puA.trans hA, same.puB.trans hB⟩

/-- Whatever widths the implementation picks, they meet the constraints of spec/00_scope.md R6. -/
theorem config_params_wellFormed : Config.params.WellFormed := by
  have hmod := Nat.mod_lt Config.pinIdWidthChoice (y := 2 + Config.posWidthBeyondTwo) (by omega)
  simp only [Params.WellFormed, Config.params]
  omega

/-! ## The statements -/

/-- Settles O16: the invariant after each kind of step; the feed taken after it does not matter. -/
theorem invariantKeptByEveryStep : Obligations.InvariantKeptByEveryStep := by
  intro s t inv h
  have wf := inv.1
  rcases step_next_cases h with ⟨-, rfl⟩ | ⟨-, rfl⟩ | ⟨-, u, hu, rfl⟩
  · exact takeInputs_inv (losePower_inv wf)
  · exact takeInputs_inv (construct_inv wf _ _)
  · exact takeInputs_inv (exec_keeps_inv inv hu)

/-- Settles O15: only a command is performed with neither power loss nor reset presented, and it keeps the binding. -/
theorem bindingHeldBetweenResets : Obligations.BindingHeldBetweenResets := by
  intro s t h
  rcases step_next_cases h with ⟨hk, rfl⟩ | ⟨hk, rfl⟩ | ⟨-, u, hu, rfl⟩
  · have lost := stepKind_eq_powerLoss_iff.mp hk
    exact ⟨rfl, fun power => by simp [lost] at power⟩
  · obtain ⟨-, rst⟩ := stepKind_eq_reset_iff.mp hk
    exact ⟨rfl, fun _ noReset => by simp [rst] at noReset⟩
  · obtain ⟨params, pinA, pinB, puA, puB, constructed⟩ := exec_sameBinding hu
    exact ⟨params, fun _ _ => ⟨pinA, pinB, puA, puB, constructed⟩⟩

/-- Settles O8: with signals pending and with none. -/
theorem inputsAreTakenInOrder : Obligations.InputsAreTakenInOrder := by
  constructor
  · intro s i rest h
    simp [State.takeInputs, nextPort_of_pending_cons h, h]
  · intro s h
    simp [State.takeInputs, nextPort_of_pending_nil h, h]

/-- Settles O12: the widths of the reset state are free within their constraints, and the rest are reset values. -/
theorem resetMeetsInvariant : Obligations.ResetMeetsInvariant :=
  ⟨config_params_wellFormed, fun _ => ⟨subStepReset_legal, rfl, rfl⟩⟩

end Sys2Proof.Machine
end

section
/-! SUPPORT. Position arithmetic at every width, and the detent account along command sequences (spec/10_state.md R23,
R31): one account equation for the add, one for a command, and an induction over the sequence. -/

namespace Sys2Proof.Machine

/-! ## Integers in a register of `w` bits -/

/-- A register keeps an integer up to a multiple of 2^w. -/
theorem dvd_toInt_ofInt_sub (w : Nat) (r : Int) : (2 ^ w : Int) ∣ (BitVec.ofInt w r).toInt - r := by
  rw [BitVec.toInt_ofInt]
  exact_mod_cast Int.dvd_bmod_sub_self

theorem outOfRange_eq_true_iff {w : Nat} {r : Int} :
    outOfRange w r = true ↔ r > 2 ^ (w - 1) - 1 ∨ r < -(2 ^ (w - 1)) := by
  simp [outOfRange]

theorem outOfRange_eq_false_iff {w : Nat} {r : Int} :
    outOfRange w r = false ↔ ¬(r > 2 ^ (w - 1) - 1 ∨ r < -(2 ^ (w - 1))) := by
  rw [← outOfRange_eq_true_iff, Bool.not_eq_true]

theorem toInt_ofInt_of_inRange {w : Nat} (hw : 1 ≤ w) {r : Int} (h : outOfRange w r = false) :
    (BitVec.ofInt w r).toInt = r := by
  have range := outOfRange_eq_false_iff.mp h
  exact BitVec.toInt_ofInt_eq_self hw (by omega) (by omega)

/-! ## The position add -/

theorem sampledAndAdded_position_dvd (s : State) :
    (2 ^ s.params.posWidth : Int) ∣
      s.sampledAndAdded.position.toInt - (s.position.toInt + (sampleStep s).toInt) :=
  dvd_toInt_ofInt_sub _ _

theorem sampledAndAdded_position_of_inRange {s : State} (hw : 1 ≤ s.params.posWidth)
    (h : outOfRange s.params.posWidth (s.position.toInt + (sampleStep s).toInt) = false) :
    s.sampledAndAdded.position.toInt = s.position.toInt + (sampleStep s).toInt :=
  toInt_ofInt_of_inRange hw h

/-- The account takes the delta looked up, and four times what the add lost by wrapping. -/
theorem sampledAndAdded_account {s : State} (legal : s.subStep.Legal) :
    s.sampledAndAdded.account = s.account + (lookedUp s).toInt +
      4 * (s.sampledAndAdded.position.toInt - (s.position.toInt + (sampleStep s).toInt)) := by
  have trigger := threshold_account legal (lookedUp s)
  change 4 * (sampleStep s).toInt + s.sampledAndAdded.subStep.toInt = _ at trigger
  simp only [State.account]
  omega

/-! ## Command sequences -/

theorem performs_cons_eq_next {i : Instr} {x y : Bool} {cs : List (Instr × Bool × Bool)} {s t : State}
    (h : performs ((i, x, y) :: cs) s = .next t) :
    ∃ u, exec i (s.offer i x y) = .next u ∧ performs cs u = .next t :=
  andThen_eq_next h

/-- What every command keeps, a command sequence keeps. -/
theorem performs_keeps {P : State → Prop}
    (kept : ∀ (i : Instr) (x y : Bool) (s t : State), P s → exec i (s.offer i x y) = .next t → P t)
    {cs : List (Instr × Bool × Bool)} {s t : State} (hs : P s) (h : performs cs s = .next t) : P t := by
  induction cs generalizing s with
  | nil => cases h; exact hs
  | cons c rest ih =>
    obtain ⟨u, hu, ht⟩ := performs_cons_eq_next h
    exact ih (kept _ _ _ _ _ hs hu) ht

theorem State.SameBinding.trans {s t u : State} (hst : s.SameBinding t) (htu : t.SameBinding u) :
    s.SameBinding u :=
  ⟨htu.params.trans hst.params, htu.pinAId.trans hst.pinAId, htu.pinBId.trans hst.pinBId,
    htu.puA.trans hst.puA, htu.puB.trans hst.puB, htu.constructed.trans hst.constructed⟩

theorem offer_sameBinding (s : State) (i : Instr) (x y : Bool) : s.SameBinding (s.offer i x y) :=
  ⟨rfl, rfl, rfl, rfl, rfl, rfl⟩

theorem performs_sameBinding {cs : List (Instr × Bool × Bool)} {s t : State} (h : performs cs s = .next t) :
    s.SameBinding t :=
  performs_keeps (P := s.SameBinding)
    (fun i x y _ _ same hu => (same.trans (offer_sameBinding _ i x y)).trans (exec_sameBinding hu))
    ⟨rfl, rfl, rfl, rfl, rfl, rfl⟩ h

theorem offered_keeps_subStep_legal {i : Instr} {x y : Bool} {s t : State} (legal : s.subStep.Legal)
    (h : exec i (s.offer i x y) = .next t) : t.subStep.Legal :=
  exec_keeps_subStep_legal (s := s.offer i x y) legal h

theorem performs_keeps_subStep_legal {cs : List (Instr × Bool × Bool)} {s t : State} (legal : s.subStep.Legal)
    (h : performs cs s = .next t) : t.subStep.Legal :=
  performs_keeps (P := fun u => u.subStep.Legal)
    (fun _ _ _ _ _ hu he => offered_keeps_subStep_legal hu he) legal h

/-- What a command adds to `deltaSum`: the delta it looks up, if it is a sampling command. -/
def countedDelta (i : Instr) (s : State) : Int :=
  if i.isSampling then (lookedUp s).toInt else 0

theorem deltaSum_cons {i : Instr} {x y : Bool} {s u : State} (h : exec i (s.offer i x y) = .next u)
    (cs : List (Instr × Bool × Bool)) :
    deltaSum ((i, x, y) :: cs) s = countedDelta i (s.offer i x y) + deltaSum cs u := by
  simp [deltaSum, h, countedDelta]

theorem neverWraps_cons {i : Instr} {x y : Bool} {s u : State} (h : exec i (s.offer i x y) = .next u)
    {cs : List (Instr × Bool × Bool)} (fits : neverWraps ((i, x, y) :: cs) s = true) :
    (i = .accumulate ∨ i = .update →
      outOfRange s.params.posWidth (s.position.toInt + (sampleStep (s.offer i x y)).toInt) = false) ∧
    neverWraps cs u = true := by
  simp only [neverWraps, h, Bool.and_eq_true] at fits
  obtain ⟨inRange, rest⟩ := fits
  refine ⟨fun add => ?_, rest⟩
  have adds : (i == .accumulate || i == .update) = true := by simpa using add
  simpa [adds] using inRange

/-! ## The detent account -/

section
variable {i : Instr} {s t : State}

/-- One command other than SAMPLE and RESET_POS: a command that samples adds the step it emits, and any other leaves the
account alone. -/
theorem exec_account_cases (noSample : i ≠ .sample) (noClear : i ≠ .resetPos) (h : exec i s = .next t) :
    (t.account = s.account ∧ countedDelta i s = 0) ∨
    ((i = .accumulate ∨ i = .update) ∧ t.account = s.sampledAndAdded.account ∧
      countedDelta i s = (lookedUp s).toInt) := by
  rcases exec_next_cases h with ⟨r, rfl, idle, -⟩ | ⟨clear, -⟩ | ⟨sample, -⟩ | ⟨add, r, rfl⟩
  · exact .inl ⟨rfl, by simp [countedDelta, idle]⟩
  · exact absurd clear noClear
  · exact absurd sample noSample
  · have samples : i.isSampling = true := by rcases add with rfl | rfl <;> rfl
    exact .inr ⟨add, rfl, by simp [countedDelta, samples]⟩

theorem exec_account_dvd (noSample : i ≠ .sample) (noClear : i ≠ .resetPos) (legal : s.subStep.Legal)
    (h : exec i s = .next t) :
    (4 * 2 ^ s.params.posWidth : Int) ∣ t.account - (s.account + countedDelta i s) := by
  rcases exec_account_cases noSample noClear h with ⟨same, zero⟩ | ⟨-, added, counted⟩
  · simp [same, zero]
  · rw [added, counted, sampledAndAdded_account legal, add_sub_cancel_left]
    exact mul_dvd_mul_left 4 (sampledAndAdded_position_dvd s)

theorem exec_account_of_inRange (noSample : i ≠ .sample) (noClear : i ≠ .resetPos) (legal : s.subStep.Legal)
    (hw : 1 ≤ s.params.posWidth)
    (fits : i = .accumulate ∨ i = .update →
      outOfRange s.params.posWidth (s.position.toInt + (sampleStep s).toInt) = false)
    (h : exec i s = .next t) : t.account = s.account + countedDelta i s := by
  rcases exec_account_cases noSample noClear h with ⟨same, zero⟩ | ⟨add, added, counted⟩
  · rw [same, zero, add_zero]
  · rw [added, counted, sampledAndAdded_account legal, sampledAndAdded_position_of_inRange hw (fits add),
      sub_self, mul_zero, add_zero]

end

section
variable {cs : List (Instr × Bool × Bool)} {s t : State}

theorem performs_account_dvd (only : ∀ c ∈ cs, c.1 ≠ .sample ∧ c.1 ≠ .resetPos) (legal : s.subStep.Legal)
    (h : performs cs s = .next t) :
    (4 * 2 ^ s.params.posWidth : Int) ∣ t.account - (s.account + deltaSum cs s) := by
  induction cs generalizing s with
  | nil => cases h; simp [deltaSum]
  | cons c rest ih =>
    obtain ⟨i, x, y⟩ := c
    obtain ⟨⟨noSample, noClear⟩, onlyRest⟩ := List.forall_mem_cons.mp only
    obtain ⟨u, hu, ht⟩ := performs_cons_eq_next h
    have head : (4 * 2 ^ s.params.posWidth : Int) ∣ u.account - (s.account + countedDelta i (s.offer i x y)) :=
      exec_account_dvd (s := s.offer i x y) noSample noClear legal hu
    have tail := ih onlyRest (offered_keeps_subStep_legal legal hu) ht
    rw [show u.params = s.params from (exec_sameBinding hu).params] at tail
    have split : t.account - (s.account + deltaSum ((i, x, y) :: rest) s) =
        (u.account - (s.account + countedDelta i (s.offer i x y))) + (t.account - (u.account + deltaSum rest u)) := by
      rw [deltaSum_cons hu]
      ring
    exact split ▸ dvd_add head tail

theorem performs_account_of_neverWraps (only : ∀ c ∈ cs, c.1 ≠ .sample ∧ c.1 ≠ .resetPos)
    (legal : s.subStep.Legal) (hw : 1 ≤ s.params.posWidth) (fits : neverWraps cs s = true)
    (h : performs cs s = .next t) : t.account = s.account + deltaSum cs s := by
  induction cs generalizing s with
  | nil => cases h; simp [deltaSum]
  | cons c rest ih =>
    obtain ⟨i, x, y⟩ := c
    obtain ⟨⟨noSample, noClear⟩, onlyRest⟩ := List.forall_mem_cons.mp only
    obtain ⟨u, hu, ht⟩ := performs_cons_eq_next h
    obtain ⟨fitsHead, fitsRest⟩ := neverWraps_cons hu fits
    have head : u.account = s.account + countedDelta i (s.offer i x y) :=
      exec_account_of_inRange (s := s.offer i x y) noSample noClear legal hw fitsHead hu
    have width : u.params = s.params := (exec_sameBinding hu).params
    have tail := ih onlyRest (offered_keeps_subStep_legal legal hu) (width ▸ hw) fitsRest ht
    rw [tail, head, deltaSum_cons hu, add_assoc]

end

/-- Settles O30: by induction over the sequence, with one account equation per command. -/
theorem detentAccountTracksDeltas : Obligations.DetentAccountTracksDeltas := by
  intro cs s t only legal h
  have same := performs_sameBinding h
  exact ⟨performs_keeps_subStep_legal legal h, same.pinAId, same.pinBId, performs_account_dvd only legal h,
    fun hw fits => performs_account_of_neverWraps only legal hw fits h⟩

end Sys2Proof.Machine
end

section
/-! SUPPORT. `history[3:2]` reaches no result (spec/10_state.md R30, spec/90_conflicts.md C9): a sampling command shifts
it out before the table read, and no other command reads `history`. -/

namespace Sys2Proof.Machine

/-- Another history in an otherwise equal state. -/
abbrev State.withHistory (s : State) (h : History) : State :=
  { s with history := h }

/-- Shifting in a sample keeps only the current sample of the old history (spec/40_sampling.md R56, steps 1 and 2). -/
theorem shiftIn_eq_append : ∀ (h : History) (levelA levelB : Bool),
    shiftIn h levelA levelB = h.extractLsb' 0 2 ++ (BitVec.ofBool levelA ++ BitVec.ofBool levelB) := by
  decide

theorem sampledHistory_eq_append (s : State) : sampledHistory s = s.currentSample ++ s.newSample :=
  shiftIn_eq_append _ _ _

section
variable {s : State} {h : History}

theorem sampleCore_withHistory (same : h.extractLsb' 0 2 = s.currentSample) :
    sampleCore (s.withHistory h) = sampleCore s := by
  have shifted : sampledHistory (s.withHistory h) = sampledHistory s := by
    rw [sampledHistory_eq_append, sampledHistory_eq_append, ← same]
    rfl
  simp only [sampleCore, sampleStep, lookedUp, shifted]

/-- The sampling commands see the state through SampleCore alone. -/
theorem exec_sampling_withHistory {i : Instr} (sampling : i.isSampling = true)
    (same : h.extractLsb' 0 2 = s.currentSample) : exec i (s.withHistory h) = exec i s := by
  have core := sampleCore_withHistory same
  cases i with
  | sample => unfold exec execSample; rw [core]
  | accumulate => simp only [exec, execAccumulate, sampleAndAdd, core]
  | update => simp only [exec, execUpdate, sampleAndAdd, core]
  | nop | readPos | resetPos | pinAId | pinBId => cases sampling

/-- Any other command completes, leaves `history` as it is and does not read it. -/
theorem exec_idle_withHistory {i : Instr} (idle : i.isSampling = false) (s : State) :
    ∃ t, exec i s = .next t ∧ t.history = s.history ∧ ∀ h, exec i (s.withHistory h) = .next (t.withHistory h) := by
  cases i with
  | nop | readPos | resetPos | pinAId | pinBId => exact ⟨_, rfl, rfl, fun _ => rfl⟩
  | sample | accumulate | update => cases idle

theorem observed_cons_of_next {i : Instr} {x y : Bool} {s t : State} (ht : exec i (s.offer i x y) = .next t)
    (cs : List (Instr × Bool × Bool)) :
    observed ((i, x, y) :: cs) s = t.result.map BitVec.toInt :: observed cs t := by
  simp only [observed, ht]

theorem observed_cons_congr {i : Instr} {x y : Bool} {s t : State}
    (same : exec i (s.offer i x y) = exec i (t.offer i x y)) (cs : List (Instr × Bool × Bool)) :
    observed ((i, x, y) :: cs) s = observed ((i, x, y) :: cs) t := by
  simp only [observed, same]

end

/-- Settles O42: a sampling command makes the two states equal, any other keeps them different in `history[3:2]` alone. -/
theorem olderSampleIsUnobservable : Obligations.OlderSampleIsUnobservable := by
  intro cs
  induction cs with
  | nil => exact fun _ _ _ => rfl
  | cons c rest ih =>
    obtain ⟨i, x, y⟩ := c
    intro s h same
    cases kind : i.isSampling with
    | true => exact observed_cons_congr (exec_sampling_withHistory (s := s.offer i x y) (h := h) kind same) rest
    | false =>
      obtain ⟨t, ht, kept, other⟩ := exec_idle_withHistory kind (s.offer i x y)
      rw [observed_cons_of_next (s := s.withHistory h) (other h), observed_cons_of_next ht]
      have current : t.currentSample = s.currentSample := congrArg (BitVec.extractLsb' 0 2) kept
      exact congrArg _ (ih t h (same.trans current.symm))

end Sys2Proof.Machine
end

section
/-! SUPPORT. Which registers a command writes (spec/10_state.md R24, R26): the position add, the frame, and the values
reset leaves. -/

namespace Sys2Proof.Machine

/-- A register reads as the integer that differs from what was put in it by a multiple of 2^w. -/
theorem toInt_ofInt_of_dvd {w : Nat} (hw : 1 ≤ w) {r z : Int} (range : outOfRange w z = false)
    (same : (2 ^ w : Int) ∣ z - r) : (BitVec.ofInt w r).toInt = z := by
  have inside := outOfRange_eq_false_iff.mp range
  have double : (2 * 2 ^ (w - 1) : Int) = 2 ^ w := mul_pow_sub_one (by omega) 2
  rw [BitVec.toInt_ofInt, Int.bmod_eq_iff (Nat.two_pow_pos w)]
  push_cast
  exact ⟨by omega, by omega, same⟩

theorem toNat_ofInt_eq_emod (w : Nat) (r : Int) : ((BitVec.ofInt w r).toNat : Int) = r % 2 ^ w := by
  rw [BitVec.toNat_ofInt, Nat.cast_pow, Nat.cast_ofNat, Int.toNat_of_nonneg (Int.emod_nonneg _ (by positivity))]

/-- Settles O21: the answers of PosAdd by mode and range, and the two extremes, which lie 2^w apart from the sum. -/
theorem posAddRule : Obligations.PosAddRule := by
  constructor
  · intro s st
    refine ⟨fun wrap => ?_, fun fault outside => ?_, fun fault inside => ?_, toNat_ofInt_eq_emod _ _⟩
    · rcases posAdd_cases st s with ⟨e, -⟩ | ⟨-, mode, -⟩
      · exact e
      · cases wrap.symm.trans mode
    · rcases posAdd_cases st s with ⟨-, mode | fits⟩ | ⟨e, -⟩
      · cases fault.symm.trans mode
      · exact absurd outside (outOfRange_eq_false_iff.mp fits)
      · exact e
    · rcases posAdd_cases st s with ⟨e, -⟩ | ⟨-, -, leaves⟩
      · exact e
      · exact absurd (outOfRange_eq_true_iff.mp leaves) inside
  · intro w p hw
    have double : (2 * 2 ^ (w - 1) : Int) = 2 ^ w := mul_pow_sub_one (by omega) 2
    have pos : (0 : Int) < 2 ^ (w - 1) := by positivity
    refine ⟨fun top => ?_, fun bottom => ?_⟩
    · exact toInt_ofInt_of_dvd (by omega) (outOfRange_eq_false_iff.mpr (by omega)) ⟨-1, by omega⟩
    · exact toInt_ofInt_of_dvd (by omega) (outOfRange_eq_false_iff.mpr (by omega)) ⟨1, by omega⟩

/-- Whenever ACCUMULATE or UPDATE completes, the add has completed: it wraps or stays in range. -/
theorem sampleAndAdd_of_exec {i : Instr} {s t : State} (add : i = .accumulate ∨ i = .update)
    (h : exec i s = .next t) :
    s.params.posOverflow = .wrap ∨
      outOfRange s.params.posWidth (s.position.toInt + (sampleStep s).toInt) = false := by
  have completes : ∃ u, sampleAndAdd s = .next u := by
    rcases add with rfl | rfl
    · exact (andThen_eq_next h).imp fun _ hu => hu.1
    · exact (andThen_eq_next h).imp fun _ hu => hu.1
  obtain ⟨u, hu⟩ := completes
  rcases sampleAndAdd_cases s with ⟨-, ok⟩ | ⟨e, -⟩
  · exact ok
  · cases e.symm.trans hu

/-- Settles O34: by what the command wrote. -/
theorem onlyThreeCommandsWritePosition : Obligations.OnlyThreeCommandsWritePosition := by
  intro i s t h
  rcases exec_next_cases h with ⟨r, rfl, idle, noClear⟩ | ⟨rfl, rfl⟩ | ⟨rfl, r, rfl⟩ | ⟨add, r, rfl⟩
  · refine ⟨fun add => ?_, fun clear => absurd clear noClear, fun _ _ _ => rfl⟩
    rcases add with rfl | rfl <;> cases idle
  · exact ⟨by simp, fun _ => BitVec.toInt_zero, by simp⟩
  · exact ⟨by simp, by simp, fun _ _ _ => rfl⟩
  · refine ⟨fun _ => ⟨sampledAndAdded_position_dvd s, fun fault hw => ?_⟩, ?_, ?_⟩
    · rcases sampleAndAdd_of_exec add h with wrap | fits
      · cases fault.symm.trans wrap
      · exact sampledAndAdded_position_of_inRange hw fits
    · rcases add with rfl | rfl <;> simp
    · rcases add with rfl | rfl <;> simp

/-- Settles O40: by what the command wrote. -/
theorem commandFrame : Obligations.CommandFrame := by
  intro i s t h
  rcases exec_next_cases h with ⟨r, rfl, -⟩ | ⟨rfl, rfl⟩ | ⟨rfl, r, rfl⟩ | ⟨add, r, rfl⟩
  · exact ⟨s.history, s.subStep, s.position, r, rfl, fun _ => ⟨rfl, rfl⟩, fun _ _ _ => rfl⟩
  · exact ⟨s.history, s.subStep, _, none, rfl, fun _ => ⟨rfl, rfl⟩, by simp⟩
  · exact ⟨_, _, s.position, r, rfl, by simp [Instr.isSampling], fun _ _ _ => rfl⟩
  · refine ⟨_, _, s.sampledAndAdded.position, r, rfl, ?_, ?_⟩
    · rcases add with rfl | rfl <;> simp [Instr.isSampling]
    · rcases add with rfl | rfl <;> simp

/-- After the idle seed of reset, the first sampling command has the sample (1,1) as its previous one. -/
theorem shiftIn_historyReset_previous : ∀ levelA levelB : Bool,
    (shiftIn 0b0011#4 levelA levelB).extractLsb' 2 2 = 0b11#2 := by
  decide

/-- Settles O11: the reset values by definition, and the idle seed. -/
theorem resetRegisterValues : Obligations.ResetRegisterValues :=
  ⟨⟨rfl, rfl, rfl⟩, fun _ _ _ => ⟨rfl, rfl, rfl⟩, fun _ => rfl, rfl, rfl, rfl, rfl, shiftIn_historyReset_previous⟩

end Sys2Proof.Machine
end

section
/-! SUPPORT. Turning the encoder in one direction (spec/20_memory.md R34, spec/40_sampling.md R56, R57): every transition
looks up the same delta, so the detent account gives the count, and `subStep` never takes the other sign. -/

namespace Sys2Proof.Machine

/-! ## A sampling command that sees a given sample -/

/-- The sample a sampling command takes from the two levels of `p` is `p`. -/
theorem levels_append : ∀ p : Sample, BitVec.ofBool (p.getLsbD 1) ++ BitVec.ofBool (p.getLsbD 0) = p := by
  decide

theorem append_currentSample : ∀ p c : Sample, (p ++ c : History).extractLsb' 0 2 = c := by
  decide

/-- The block with an offered command that sees the sample `p`. -/
abbrev State.offerSample (s : State) (i : Instr) (p : Sample) : State :=
  s.offer i (p.getLsbD 1) (p.getLsbD 0)

/-- Step 4 of SampleCore when the sample is `p` (spec/40_sampling.md R56). -/
def State.sumAt (s : State) (p : Sample) : Int :=
  subStepSum s.subStep (tableRead (s.currentSample ++ p))

section
variable (s : State) (i : Instr) (p : Sample)

theorem sampledHistory_offerSample : sampledHistory (s.offerSample i p) = s.currentSample ++ p := by
  rw [sampledHistory_eq_append]
  exact congrArg (s.currentSample ++ ·) (levels_append p)

theorem lookedUp_offerSample : lookedUp (s.offerSample i p) = tableRead (s.currentSample ++ p) :=
  congrArg tableRead (sampledHistory_offerSample s i p)

theorem sampledHistory_offerSample_current : (sampledHistory (s.offerSample i p)).extractLsb' 0 2 = p := by
  rw [sampledHistory_offerSample, append_currentSample]

theorem subStepSum_offerSample :
    subStepSum (s.offerSample i p).subStep (lookedUp (s.offerSample i p)) = s.sumAt p :=
  congrArg (subStepSum s.subStep) (lookedUp_offerSample s i p)

end

theorem exec_update_of_wrap {s : State} (wrap : s.params.posOverflow = .wrap) :
    exec .update s = .next (s.sampledAndAdded.setResult none) := by
  rcases sampleAndAdd_cases s with ⟨e, -⟩ | ⟨-, fault, -⟩
  · change andThen (sampleAndAdd s) _ = _
    rw [e]
    rfl
  · cases wrap.symm.trans fault

/-- An UPDATE that sees `p` makes it the current sample and stores what the threshold trigger keeps. -/
theorem exec_update_offerSample {s : State} (wrap : s.params.posOverflow = .wrap) (p : Sample) :
    ∃ u, exec .update (s.offerSample .update p) = .next u ∧ u.params = s.params ∧ u.currentSample = p ∧
      u.subStep = storedSubStep (s.sumAt p) :=
  ⟨_, exec_update_of_wrap wrap, rfl, sampledHistory_offerSample_current s .update p,
    congrArg storedSubStep (subStepSum_offerSample s .update p)⟩

/-! ## Turning -/

theorem tableRead_forwardNext : ∀ p : Sample, tableRead (p ++ forwardNext p) = .plusOne := by
  decide

theorem tableRead_reverseNext : ∀ p : Sample, tableRead (p ++ reverseNext p) = .minusOne := by
  decide

/-- A `subStep` on the side of the delta looked up, or at 0, stays there. -/
theorem storedSubStep_same_side {v : SubStep} {d : Delta} (side : 0 ≤ d.toInt * v.toInt) :
    0 ≤ d.toInt * (storedSubStep (subStepSum v d)).toInt := by
  rcases threshold_cases (subStepSum v d) with ⟨-, -, e⟩ | ⟨-, -, e⟩ | ⟨lo, hi, -, e⟩
  · simp [e]
  · simp [e]
  · rw [e, toInt_ofInt_four (by omega) (by omega), subStepSum, mul_add]
    exact add_nonneg side (mul_self_nonneg _)

theorem performs_cons_of_next {i : Instr} {x y : Bool} {s u : State} (h : exec i (s.offer i x y) = .next u)
    (cs : List (Instr × Bool × Bool)) : performs ((i, x, y) :: cs) s = performs cs u := by
  simp only [performs, h, andThen_next]

theorem turning_command {next : Sample → Sample} {i : Instr} {n : Nat} {p : Sample} :
    ∀ c ∈ turning next i n p, c.1 = i := by
  induction n generalizing p with
  | zero => exact fun _ h => nomatch h
  | succ n ih => exact List.forall_mem_cons.mpr ⟨rfl, ih⟩

section
variable {next : Sample → Sample} {d : Delta} (looks : ∀ p, tableRead (p ++ next p) = d)
include looks

/-- `n` UPDATEs along a cycle whose every transition looks up `d`. -/
theorem performs_turning_update (n : Nat) {s : State} (wrap : s.params.posOverflow = .wrap)
    (side : 0 ≤ d.toInt * s.subStep.toInt) :
    ∃ t, performs (turning next .update n s.currentSample) s = .next t ∧
      deltaSum (turning next .update n s.currentSample) s = n * d.toInt ∧ 0 ≤ d.toInt * t.subStep.toInt := by
  induction n generalizing s with
  | zero => exact ⟨s, rfl, by simp [turning, deltaSum], side⟩
  | succ n ih =>
    obtain ⟨u, hu, params, current, stored⟩ := exec_update_offerSample wrap (next s.currentSample)
    rw [State.sumAt, looks] at stored
    obtain ⟨t, ht, sum, sameSide⟩ := ih (s := u) (params ▸ wrap) (stored ▸ storedSubStep_same_side side)
    rw [current] at ht sum
    refine ⟨t, (performs_cons_of_next hu _).trans ht, ?_, sameSide⟩
    have counted : countedDelta .update (s.offerSample .update (next s.currentSample)) = d.toInt :=
      congrArg Delta.toInt ((lookedUp_offerSample _ _ _).trans (looks _))
    rw [turning, deltaSum_cons hu, sum, counted]
    push_cast
    ring

/-- From `subStep = 0` the account moves by `n` transitions, and `subStep` ends on their side. -/
theorem turning_update_account (n : Nat) {s : State} (wrap : s.params.posOverflow = .wrap)
    (start : s.subStep = 0#4) :
    ∃ t, performs (turning next .update n s.currentSample) s = .next t ∧ t.subStep.Legal ∧
      0 ≤ d.toInt * t.subStep.toInt ∧
      ∃ k : Int, 4 * t.position.toInt + t.subStep.toInt =
        4 * s.position.toInt + n * d.toInt + 4 * (2 ^ s.params.posWidth * k) := by
  have legal : s.subStep.Legal := by rw [start]; decide
  have zero : s.subStep.toInt = 0 := by rw [start]; rfl
  obtain ⟨t, ht, sum, side⟩ := performs_turning_update looks n wrap (by rw [zero, mul_zero])
  have only : ∀ c ∈ turning next .update n s.currentSample, c.1 ≠ .sample ∧ c.1 ≠ .resetPos := by
    intro c hc
    rw [turning_command c hc]
    decide
  obtain ⟨k, hk⟩ := performs_account_dvd only legal ht
  refine ⟨t, ht, performs_keeps_subStep_legal legal ht, side, k, ?_⟩
  simp only [State.account, sum, zero, mul_assoc] at hk
  omega

end

/-- Settles O29: the account fixes `position` and `subStep` once the sign of `subStep` is known. -/
theorem turningCountsDetents : Obligations.TurningCountsDetents := by
  intro n s wrap start
  constructor
  · obtain ⟨t, ht, ⟨-, hi⟩, side, k, account⟩ := turning_update_account tableRead_forwardNext n wrap start
    rw [toInt_plusOne] at side account
    exact ⟨t, ht, by omega, k, by omega⟩
  · obtain ⟨t, ht, ⟨lo, -⟩, side, k, account⟩ := turning_update_account tableRead_reverseNext n wrap start
    rw [toInt_minusOne] at side account
    exact ⟨t, ht, by omega, k, by omega⟩

end Sys2Proof.Machine
end

section
/-! SUPPORT. The current sample and `subStep` are observable (spec/10_state.md R30): one SAMPLE tells two states with
different sums apart or leaves them with one current sample and different sub-steps, and turning forward then makes the
larger sub-step emit first. -/

namespace Sys2Proof.Machine

/-- A SAMPLE command per pair of levels. -/
abbrev samples (levels : List (Bool × Bool)) : List (Instr × Bool × Bool) :=
  levels.map fun l => (.sample, l.1, l.2)

/-- Some sequence of SAMPLE commands has different results in `s` and `t`. -/
def Distinguishable (s t : State) : Prop :=
  ∃ levels : List (Bool × Bool), observed (samples levels) s ≠ observed (samples levels) t

theorem Distinguishable.symm {s t : State} : Distinguishable s t → Distinguishable t s
  | ⟨levels, differ⟩ => ⟨levels, differ.symm⟩

theorem distinguishable_of_sample {s t u v : State} {p : Sample}
    (hu : exec .sample (s.offerSample .sample p) = .next u) (hv : exec .sample (t.offerSample .sample p) = .next v)
    (differ : u.result.map BitVec.toInt ≠ v.result.map BitVec.toInt ∨ Distinguishable u v) :
    Distinguishable s t := by
  rcases differ with results | ⟨levels, rest⟩
  · refine ⟨[(p.getLsbD 1, p.getLsbD 0)], fun same => results ?_⟩
    rw [samples, List.map_cons, observed_cons_of_next hu, observed_cons_of_next hv] at same
    exact (List.cons.inj same).1
  · refine ⟨(p.getLsbD 1, p.getLsbD 0) :: levels, fun same => rest ?_⟩
    rw [samples, List.map_cons, observed_cons_of_next hu, observed_cons_of_next hv] at same
    exact (List.cons.inj same).2

/-! ## One SAMPLE -/

theorem toInt_stepWord {w : Nat} (hw : 2 ≤ w) (st : Delta) : (stepWord w st).toInt = st.toInt := by
  rw [stepWord, BitVec.toInt_signExtend_of_le hw]
  cases st <;> rfl

/-- What a host needs to read the steps of a block: a result word that holds them, and a legal `subStep`. -/
structure State.Readable (s : State) : Prop where
  width : 2 ≤ s.params.posWidth
  legal : s.subStep.Legal

/-- A SAMPLE that sees `p`: the new current sample, the `subStep` kept, and the step as the result. -/
theorem exec_sample_offerSample {s : State} (hs : s.Readable) (p : Sample) :
    ∃ u, exec .sample (s.offerSample .sample p) = .next u ∧ u.Readable ∧ u.currentSample = p ∧
      u.subStep = storedSubStep (s.sumAt p) ∧
      u.result.map BitVec.toInt = some (emittedStep (s.sumAt p)).toInt := by
  have sum := subStepSum_offerSample s .sample p
  refine ⟨_, rfl, ⟨hs.width, storedSubStep_legal _⟩, sampledHistory_offerSample_current s .sample p,
    congrArg storedSubStep sum, congrArg some ?_⟩
  exact (toInt_stepWord hs.width _).trans (congrArg (fun n => (emittedStep n).toInt) sum)

theorem threshold_of_inside {n : Int} (lo : -3 ≤ n) (hi : n ≤ 3) :
    emittedStep n = .zero ∧ (storedSubStep n).toInt = n := by
  rcases threshold_cases n with ⟨above, -⟩ | ⟨below, -⟩ | ⟨-, -, emitted, stored⟩
  · omega
  · omega
  · exact ⟨emitted, by rw [stored, toInt_ofInt_four (by omega) (by omega)]⟩

theorem sumAt_forwardNext (s : State) : s.sumAt (forwardNext s.currentSample) = s.subStep.toInt + 1 := by
  rw [State.sumAt, tableRead_forwardNext]
  rfl

/-- A SAMPLE that sees `p` tells `s` and `t` apart by its result, or leaves two states to tell apart. -/
theorem distinguishable_of_sumAt {s t : State} (hs : s.Readable) (ht : t.Readable) (p : Sample)
    (differ : (emittedStep (s.sumAt p)).toInt ≠ (emittedStep (t.sumAt p)).toInt ∨
      ∀ u v : State, u.Readable → v.Readable → u.currentSample = p → v.currentSample = p →
        u.subStep = storedSubStep (s.sumAt p) → v.subStep = storedSubStep (t.sumAt p) → Distinguishable u v) :
    Distinguishable s t := by
  obtain ⟨u, hu, readU, currentU, storedU, resultU⟩ := exec_sample_offerSample hs p
  obtain ⟨v, hv, readV, currentV, storedV, resultV⟩ := exec_sample_offerSample ht p
  refine distinguishable_of_sample hu hv (differ.imp (fun emitted => ?_) fun later => ?_)
  · rw [resultU, resultV]
    exact fun same => emitted (Option.some.inj same)
  · exact later u v readU readV currentU currentV storedU storedV

/-! ## Two states with one current sample -/

/-- A forward transition that takes a legal `subStep` below 3 emits nothing and is kept. -/
theorem sumAt_forwardNext_below {s : State} (hs : s.Readable) (lt : s.subStep.toInt < 3) :
    (emittedStep (s.sumAt (forwardNext s.currentSample))).toInt = 0 ∧
      (storedSubStep (s.sumAt (forwardNext s.currentSample))).toInt = s.subStep.toInt + 1 := by
  obtain ⟨lo, -⟩ := hs.legal
  rw [sumAt_forwardNext]
  obtain ⟨emitted, stored⟩ := threshold_of_inside (n := s.subStep.toInt + 1) (by omega) (by omega)
  exact ⟨by rw [emitted]; rfl, stored⟩

/-- Turning forward from one current sample, the state with the larger `subStep` emits while the other does not; `k` is
how far the larger one lies below the threshold. -/
theorem distinguishable_of_subStep_lt (k : Nat) {s t : State} (hs : s.Readable) (ht : t.Readable)
    (current : s.currentSample = t.currentSample) (lt : s.subStep.toInt < t.subStep.toInt)
    (below : t.subStep.toInt + k = 3) : Distinguishable s t := by
  induction k generalizing s t with
  | zero =>
    refine distinguishable_of_sumAt hs ht (forwardNext s.currentSample) (.inl ?_)
    obtain ⟨nothing, -⟩ := sumAt_forwardNext_below hs (by omega)
    rw [nothing, current, sumAt_forwardNext, show t.subStep.toInt + 1 = 4 by omega]
    decide
  | succ k ih =>
    obtain ⟨-, keptS⟩ := sumAt_forwardNext_below hs (by omega)
    obtain ⟨-, keptT⟩ := sumAt_forwardNext_below ht (by omega)
    rw [← current] at keptT
    refine distinguishable_of_sumAt hs ht (forwardNext s.currentSample) (.inr ?_)
    intro u v readU readV currentU currentV storedU storedV
    rw [← storedU] at keptS
    rw [← storedV] at keptT
    exact ih readU readV (currentU.trans currentV.symm) (by omega) (by omega)

theorem distinguishable_of_subStep_ne {s t : State} (hs : s.Readable) (ht : t.Readable)
    (current : s.currentSample = t.currentSample) (ne : s.subStep ≠ t.subStep) : Distinguishable s t := by
  obtain ⟨-, hiS⟩ := hs.legal
  obtain ⟨-, hiT⟩ := ht.legal
  rcases lt_or_gt_of_ne (mt BitVec.toInt_inj.mp ne) with lt | gt
  · exact distinguishable_of_subStep_lt (3 - t.subStep.toInt).toNat hs ht current lt (by omega)
  · exact (distinguishable_of_subStep_lt (3 - s.subStep.toInt).toNat ht hs current.symm gt (by omega)).symm

/-! ## Two states with different current samples -/

/-- Different sums of the two states are told apart by what is emitted or by what is kept. -/
theorem threshold_separates {v w : SubStep} (hv : v.Legal) (hw : w.Legal) {c d : Delta}
    (ne : subStepSum v c ≠ subStepSum w d) :
    (emittedStep (subStepSum v c)).toInt ≠ (emittedStep (subStepSum w d)).toInt ∨
      storedSubStep (subStepSum v c) ≠ storedSubStep (subStepSum w d) := by
  by_contra same
  obtain ⟨emitted, stored⟩ := not_or.mp same
  have accountV := threshold_account hv c
  rw [not_not.mp emitted, not_not.mp stored, threshold_account hw d] at accountV
  exact ne accountV.symm

theorem distinguishable_of_sumAt_ne {s t : State} (hs : s.Readable) (ht : t.Readable) (p : Sample)
    (ne : s.sumAt p ≠ t.sumAt p) : Distinguishable s t := by
  refine distinguishable_of_sumAt hs ht p ((threshold_separates hs.legal ht.legal ne).imp_right fun stored => ?_)
  intro u v readU readV currentU currentV storedU storedV
  refine distinguishable_of_subStep_ne readU readV (currentU.trans currentV.symm) fun same => stored ?_
  exact storedU.symm.trans (same.trans storedV)

/-- No constant offset of `subStep` makes up for another current sample: the difference of the deltas depends on the sample
that follows. -/
theorem tableRead_separates : ∀ p q : Sample, p ≠ q → ∃ r r' : Sample,
    (tableRead (p ++ r)).toInt - (tableRead (q ++ r)).toInt ≠
      (tableRead (p ++ r')).toInt - (tableRead (q ++ r')).toInt := by
  decide

theorem distinguishable_of_currentSample_ne {s t : State} (hs : s.Readable) (ht : t.Readable)
    (ne : s.currentSample ≠ t.currentSample) : Distinguishable s t := by
  obtain ⟨r, r', deltas⟩ := tableRead_separates _ _ ne
  by_cases same : s.sumAt r = t.sumAt r
  · refine distinguishable_of_sumAt_ne hs ht r' fun same' => deltas ?_
    simp only [State.sumAt, subStepSum] at same same'
    omega
  · exact distinguishable_of_sumAt_ne hs ht r same

/-- Settles O43: the two ways in which the states may differ. -/
theorem hiddenStateIsDistinguishable : Obligations.HiddenStateIsDistinguishable := by
  intro s t widthS widthT legalS legalT differ
  by_cases current : s.currentSample = t.currentSample
  · have ne := differ.resolve_left (not_not.mpr current)
    exact distinguishable_of_subStep_ne ⟨widthS, legalS⟩ ⟨widthT, legalT⟩ current ne
  · exact distinguishable_of_currentSample_ne ⟨widthS, legalS⟩ ⟨widthT, legalT⟩ current

end Sys2Proof.Machine
end

section
/-! SUPPORT. A run over presented commands (spec/20_memory.md R42, R43, R44): the step as `exec` of the decoded command, and
one equation between the machine's run and the commands performed in order. -/

namespace Sys2Proof.Machine

theorem stepKind_eq_command_iff {s : State} :
    s.stepKind = .command ↔ s.port.powerLoss = false ∧ s.port.rst = false ∧ s.constructed = true := by
  unfold State.stepKind
  cases s.port.powerLoss <;> cases s.port.rst <;> cases s.constructed <;> decide

theorem step_of_command {s : State} (h : s.stepKind = .command) :
    step s = andThen (exec s.fetch s) fun t => .next t.takeInputs := by
  simp only [step, h]

theorem decode_encode (i : Instr) : decode (encode i) = i := by
  cases i <;> rfl

/-- Settles O7: with neither power loss nor reset presented, a constructed block performs its command. -/
theorem stepPerformsDecodedCommand : Obligations.StepPerformsDecodedCommand :=
  fun _ constructed power noReset => step_of_command (stepKind_eq_command_iff.mpr ⟨power, noReset, constructed⟩)

/-! ## A run over presented commands -/

section
variable {s : State} (constructed : s.constructed = true) (ida idb : BitVec s.params.pinIdWidth)
include constructed

theorem step_withFeed_commandInputs (c : Instr × Bool × Bool) (f : List (Inputs s.params.pinIdWidth)) (n : Nat) :
    step (s.withFeed (commandInputs ida idb c) f n) =
      andThen (exec c.1 (s.withFeed (commandInputs ida idb c) f n)) fun t => .next t.takeInputs := by
  have command : (s.withFeed (commandInputs ida idb c) f n).stepKind = .command :=
    stepKind_eq_command_iff.mpr ⟨rfl, rfl, constructed⟩
  rw [step_of_command command]
  exact congrArg (fun i => andThen (exec i _) _) (decode_encode c.1)

/-- A command offered by the host and the same command presented on the port: the step writes the same registers whatever
the rest of the feed, or both stop with the overflow fault. -/
theorem exec_offer_step_cases (i : Instr) (x y : Bool) :
    (∃ h v p r, exec i (s.offer i x y) = .next ((s.offer i x y).wrote h v p r) ∧
      ∀ (f : List (Inputs s.params.pinIdWidth)) (n : Nat),
        step (s.withFeed (commandInputs ida idb (i, x, y)) f n) =
          .next ((s.wrote h v p r).withFeed (commandInputs ida idb (i, x, y)) f n).takeInputs) ∨
    (exec i (s.offer i x y) = .fault .positionOverflow ∧
      ∀ (f : List (Inputs s.params.pinIdWidth)) (n : Nat),
        step (s.withFeed (commandInputs ida idb (i, x, y)) f n) = .fault .positionOverflow) := by
  rcases exec_shape i (s.offer i x y) with ⟨h, v, p, r, answers⟩ | faults
  · refine .inl ⟨h, v, p, r, answers _ s.pending s.drawn rfl rfl, fun f n => ?_⟩
    rw [step_withFeed_commandInputs constructed]
    exact congrArg (andThen · _) (answers (commandInputs ida idb (i, x, y)) f n rfl rfl)
  · refine .inr ⟨faults _ s.pending s.drawn rfl rfl, fun f n => ?_⟩
    rw [step_withFeed_commandInputs constructed]
    exact congrArg (andThen · _) (faults (commandInputs ida idb (i, x, y)) f n rfl rfl)

end

theorem run_succ_of_next {s t : State} (h : step s = .next t) (k : Nat) : run (k + 1) s = run k t := by
  simp only [run, h, andThen_next]

theorem run_succ_of_fault {s : State} {r : Fault} (h : step s = .fault r) (k : Nat) :
    run (k + 1) s = .fault r := by
  simp only [run, h, andThen_fault]

theorem performs_cons_of_fault {i : Instr} {x y : Bool} {s : State} {r : Fault}
    (h : exec i (s.offer i x y) = .fault r) (cs : List (Instr × Bool × Bool)) :
    performs ((i, x, y) :: cs) s = .fault r := by
  simp only [performs, h, andThen_fault]

/-- The run over presented commands is the commands performed in order, and one free draw after the last. -/
theorem run_withFeed_eq_performs (c : Instr × Bool × Bool) (cs : List (Instr × Bool × Bool)) {s : State}
    (constructed : s.constructed = true) (ida idb : BitVec s.params.pinIdWidth) (n : Nat) :
    run (cs.length + 1) (s.withFeed (commandInputs ida idb c) (cs.map (commandInputs ida idb)) n) =
      andThen (performs (c :: cs) s) fun t =>
        .next (t.withFeed (Inputs.free t.params.pinIdWidth n) [] (n + 1)) := by
  induction cs generalizing c s with
  | nil =>
    obtain ⟨i, x, y⟩ := c
    rcases exec_offer_step_cases constructed ida idb i x y with ⟨h, v, p, r, he, hs⟩ | ⟨he, hs⟩
    · rw [performs_cons_of_next he]
      exact run_succ_of_next (hs [] n) 0
    · rw [performs_cons_of_fault he]
      exact run_succ_of_fault (hs [] n) 0
  | cons c' rest ih =>
    obtain ⟨i, x, y⟩ := c
    rcases exec_offer_step_cases constructed ida idb i x y with ⟨h, v, p, r, he, hs⟩ | ⟨he, hs⟩
    · rw [performs_cons_of_next he, ← ih c' (s := (s.offer i x y).wrote h v p r) constructed ida idb]
      exact run_succ_of_next (hs ((c' :: rest).map (commandInputs ida idb)) n) (rest.length + 1)
    · rw [performs_cons_of_fault he]
      exact run_succ_of_fault (hs ((c' :: rest).map (commandInputs ida idb)) n) (rest.length + 1)

/-- Settles O44: the run's answer is that of the commands performed in order, with the feed taken on. -/
theorem runIsSequentialComposition : Obligations.RunIsSequentialComposition := by
  intro c cs s ida idb constructed port pending
  have fed : s = s.withFeed (commandInputs ida idb c) (cs.map (commandInputs ida idb)) s.drawn := by
    rw [← port, ← pending]
  have answer := run_withFeed_eq_performs c cs constructed ida idb s.drawn
  rw [← fed] at answer
  refine ⟨fun t ht => ⟨Inputs.free t.params.pinIdWidth s.drawn, s.drawn + 1, ?_⟩, fun r hr => ?_⟩
  · rw [answer, ht, andThen_next]
  · rw [answer, hr, andThen_fault]

end Sys2Proof.Machine
end

section
/-! SUPPORT. The phase-delta table and the channel levels (spec/20_memory.md R33, R34, R35, R37), and a full cycle of
ACCUMULATEs. -/

namespace Sys2Proof.Machine

/-! ## The table -/

theorem phaseTable_getElem?_toNat (i : History) : phaseTable.toList[i.toNat]? = some (tableRead i) := by
  rw [List.getElem?_eq_getElem (by simpa using i.isLt), Vector.getElem_toList]
  rfl

/-- Turning back undoes the count. -/
theorem tableRead_swap : ∀ p c : Sample, (tableRead (p ++ c)).toInt = -(tableRead (c ++ p)).toInt := by
  decide

theorem tableRead_of_even_change : ∀ p c : Sample, p ^^^ c = 0b00#2 ∨ p ^^^ c = 0b11#2 →
    tableRead (p ++ c) = .zero := by
  decide

theorem tableRead_of_single_change : ∀ p c : Sample, p ^^^ c = 0b01#2 ∨ p ^^^ c = 0b10#2 →
    tableRead (p ++ c) = .plusOne ∨ tableRead (p ++ c) = .minusOne := by
  decide

/-- Settles O5: the table's entries and their counts are closed facts; it is read at every index. -/
theorem phaseTableValues : Obligations.PhaseTableValues :=
  ⟨by decide, phaseTable_getElem?_toNat, by decide, by decide, by decide, tableRead_swap, by decide⟩

/-- Settles O6: the two classes of the table, and the two cycles. -/
theorem transitionClasses : Obligations.TransitionClasses :=
  ⟨tableRead_of_even_change, tableRead_of_single_change,
    fun p => ⟨tableRead_forwardNext p, tableRead_reverseNext p⟩, by decide, by decide⟩

/-! ## The levels -/

/-- Settles O41: a command outside the sampling family is one update of the state, which reads no level. -/
theorem levelsReachOnlySamplingCommands : Obligations.LevelsReachOnlySamplingCommands := by
  intro i s x y idle
  cases i with
  | nop | readPos | resetPos | pinAId | pinBId => rfl
  | sample | accumulate | update => cases idle

/-! ## A full cycle -/

theorem exec_accumulate_of_wrap {s : State} (wrap : s.params.posOverflow = .wrap) :
    exec .accumulate s = .next (s.sampledAndAdded.setResult (some s.sampledAndAdded.position)) := by
  rcases sampleAndAdd_cases s with ⟨e, -⟩ | ⟨-, fault, -⟩
  · change andThen (sampleAndAdd s) _ = _
    rw [e]
    rfl
  · cases wrap.symm.trans fault

/-- What a sampling command keeps in `subStep` when it looks up `d` (spec/40_sampling.md R56, steps 4 and 5). -/
def keptSubStep (d : Delta) (v : SubStep) : SubStep :=
  storedSubStep (subStepSum v d)

section
variable {next : Sample → Sample} {d : Delta} (looks : ∀ p, tableRead (p ++ next p) = d)
include looks

/-- An ACCUMULATE that sees the next sample of a cycle whose every transition looks up `d`. -/
theorem exec_accumulate_offerSample {s : State} (wrap : s.params.posOverflow = .wrap) :
    ∃ u, exec .accumulate (s.offerSample .accumulate (next s.currentSample)) = .next u ∧ u.params = s.params ∧
      u.currentSample = next s.currentSample ∧ u.subStep = keptSubStep d s.subStep := by
  refine ⟨_, exec_accumulate_of_wrap wrap, rfl, sampledHistory_offerSample_current s .accumulate _, ?_⟩
  exact congrArg (keptSubStep · s.subStep) ((lookedUp_offerSample s .accumulate _).trans (looks _))

/-- `n` ACCUMULATEs along such a cycle. -/
theorem performs_turning_accumulate (n : Nat) {s : State} (wrap : s.params.posOverflow = .wrap) :
    ∃ t, performs (turning next .accumulate n s.currentSample) s = .next t ∧
      deltaSum (turning next .accumulate n s.currentSample) s = n * d.toInt ∧
      t.currentSample = next^[n] s.currentSample ∧ t.subStep = (keptSubStep d)^[n] s.subStep := by
  induction n generalizing s with
  | zero => exact ⟨s, rfl, by simp [turning, deltaSum], rfl, rfl⟩
  | succ n ih =>
    obtain ⟨u, hu, params, current, kept⟩ := exec_accumulate_offerSample looks wrap
    obtain ⟨t, ht, sum, sample, subStep⟩ := ih (s := u) (params ▸ wrap)
    rw [current] at ht sum sample
    rw [kept] at subStep
    refine ⟨t, (performs_cons_of_next hu _).trans ht, ?_, sample, subStep⟩
    have counted : countedDelta .accumulate (s.offerSample .accumulate (next s.currentSample)) = d.toInt :=
      congrArg Delta.toInt ((lookedUp_offerSample _ _ _).trans (looks _))
    rw [turning, deltaSum_cons hu, sum, counted]
    push_cast
    ring

/-- Four transitions of a cycle of four samples that keep no residue count `d`: the account is four times `position`. -/
theorem performs_cycle_accumulate (cycle : ∀ p, next^[4] p = p) (residue : (keptSubStep d)^[4] 0#4 = 0#4)
    {s : State} (wrap : s.params.posOverflow = .wrap) (start : s.subStep = 0#4) :
    ∃ t, performs (turning next .accumulate 4 s.currentSample) s = .next t ∧
      t.subStep = 0#4 ∧ t.currentSample = s.currentSample ∧
      (2 ^ s.params.posWidth : Int) ∣ t.position.toInt - (s.position.toInt + d.toInt) := by
  obtain ⟨t, ht, sum, sample, subStep⟩ := performs_turning_accumulate looks 4 wrap
  have empty : t.subStep = 0#4 := by rw [subStep, start, residue]
  refine ⟨t, ht, empty, sample.trans (cycle _), ?_⟩
  have legal : s.subStep.Legal := by rw [start]; decide
  have only : ∀ c ∈ turning next .accumulate 4 s.currentSample, c.1 ≠ .sample ∧ c.1 ≠ .resetPos := by
    intro c hc
    rw [turning_command c hc]
    decide
  have account := performs_account_dvd only legal ht
  have fourfold : t.account - (s.account + deltaSum (turning next .accumulate 4 s.currentSample) s) =
      4 * (t.position.toInt - (s.position.toInt + d.toInt)) := by
    rw [sum, State.account, State.account, empty, start, BitVec.toInt_zero]
    push_cast
    ring
  rw [fourfold] at account
  exact Int.dvd_of_mul_dvd_mul_left (by decide) account

end

/-- Settles O28: both cycles return to their sample after four transitions, and `subStep` to 0. -/
theorem fullCycleCountsOneDetent : Obligations.FullCycleCountsOneDetent := by
  intro s wrap start
  exact ⟨performs_cycle_accumulate tableRead_forwardNext (by decide) (by decide) wrap start,
    performs_cycle_accumulate tableRead_reverseNext (by decide) (by decide) wrap start⟩

end Sys2Proof.Machine
end

section
/-! SUPPORT. Platforms of several decoders (spec/60_exceptions.md R76, spec/20_memory.md R38): what the pin test says of any
two decoders of a list. -/

namespace Sys2Proof.Machine

theorem mem_pins_iff {s : State} {pin : Nat} :
    pin ∈ s.pins ↔ s.constructed = true ∧ (pin = s.pinAId.toNat ∨ pin = s.pinBId.toNat) := by
  unfold State.pins
  cases s.constructed <;> simp

theorem sharesPin_eq_true_iff {d e : State} : sharesPin d e = true ↔ ∃ pin ∈ d.pins, pin ∈ e.pins := by
  simp [sharesPin]

theorem sharesPin_comm (d e : State) : sharesPin d e = sharesPin e d := by
  rw [Bool.eq_iff_iff, sharesPin_eq_true_iff, sharesPin_eq_true_iff]
  exact exists_congr fun _ => and_comm

theorem exclusivePins_iff_pairwise {ds : List State} :
    exclusivePins ds = true ↔ ds.Pairwise fun d e => sharesPin d e = false := by
  induction ds with
  | nil => simp [exclusivePins]
  | cons d rest ih => simp [exclusivePins, ih]

/-- Two decoders at different places of an exclusive list share no pin. -/
theorem not_sharesPin_of_exclusive {ds : List State} (exclusive : exclusivePins ds = true) {i j : Nat} {d e : State}
    (hij : i ≠ j) (hd : ds[i]? = some d) (he : ds[j]? = some e) : sharesPin d e = false := by
  obtain ⟨hi, rfl⟩ := List.getElem?_eq_some_iff.mp hd
  obtain ⟨hj, rfl⟩ := List.getElem?_eq_some_iff.mp he
  have apart := List.pairwise_iff_getElem.mp (exclusivePins_iff_pairwise.mp exclusive)
  rcases Nat.lt_or_gt_of_ne hij with lt | gt
  · exact apart i j hi hj lt
  · rw [sharesPin_comm]
    exact apart j i hj hi gt

theorem not_exclusive_of_common_pin {ds : List State} {i j : Nat} {d e : State} {pin : Nat} (hij : i ≠ j)
    (hd : ds[i]? = some d) (he : ds[j]? = some e) (pinD : pin ∈ d.pins) (pinE : pin ∈ e.pins) :
    exclusivePins ds = false := by
  refine Bool.eq_false_iff.mpr fun exclusive => ?_
  have apart := not_sharesPin_of_exclusive exclusive hij hd he
  rw [sharesPin_eq_true_iff.mpr ⟨pin, pinD, pinE⟩] at apart
  cases apart

theorem platformStep_of_not_exclusive {ds : List State} (h : exclusivePins ds = false) (k : Nat) :
    platformStep ds k = .refused .sharedPin := by
  simp [platformStep, h]

/-- A step into a list that binds two decoders to one pin is refused, by the test before it or the one after it. -/
theorem platformStep_of_next_not_exclusive {ds : List State} {k : Nat} {d t : State} (hd : ds[k]? = some d)
    (ht : step d = .next t) (h : exclusivePins (replaceAt ds k t) = false) :
    platformStep ds k = .refused .sharedPin := by
  simp [platformStep, hd, ht, asPlatform, h]

/-- Settles O46: the test before the step, and the test after it at the stepped decoder and the untouched one. -/
theorem sharedPinIsRefused : Obligations.SharedPinIsRefused := by
  constructor
  · intro ds k i j d e pin hij hd he builtD builtE pinD pinE
    exact platformStep_of_not_exclusive
      (not_exclusive_of_common_pin hij hd he (mem_pins_iff.mpr ⟨builtD, pinD⟩) (mem_pins_iff.mpr ⟨builtE, pinE⟩)) k
  · intro ds k j d t e pin hjk hd ht he builtT builtE pinT pinE
    obtain ⟨hk, -⟩ := List.getElem?_eq_some_iff.mp hd
    have stepped := replaceAt_get_self t hk
    have untouched := (replaceAt_get_other ds t hjk).trans he
    exact platformStep_of_next_not_exclusive hd ht
      (not_exclusive_of_common_pin hjk.symm stepped untouched (mem_pins_iff.mpr ⟨builtT, pinT⟩)
        (mem_pins_iff.mpr ⟨builtE, pinE⟩))

/-- Settles O47: the test after the step has passed, so no identifier of one decoder is one of the other. -/
theorem platformStaysExclusive : Obligations.PlatformStaysExclusive := by
  intro ds es k h
  obtain ⟨-, exclusive, -⟩ := platformStep_next_cases h
  refine ⟨exclusive, fun i j d e hij hd he builtD builtE => ?_⟩
  have apart : ∀ pin ∈ d.pins, pin ∉ e.pins := fun pin pinD pinE =>
    nomatch exclusive.symm.trans (not_exclusive_of_common_pin hij hd he pinD pinE)
  have pinA := apart _ (mem_pins_iff.mpr ⟨builtD, .inl rfl⟩)
  have pinB := apart _ (mem_pins_iff.mpr ⟨builtD, .inr rfl⟩)
  simp only [mem_pins_iff, builtE, true_and, not_or] at pinA pinB
  exact ⟨pinA.1, pinA.2, pinB.1, pinB.2⟩

end Sys2Proof.Machine
end

section
/-! SUPPORT. Codes and commands (spec/30_encoding.md R49, R50, R52, R54): decoder and encoder as inverses, code sequences in
whole commands, and the word the host presents. -/

namespace Sys2Proof.Machine

/-! ## One code -/

theorem encode_decode : ∀ op : CmdWord, encode (decode op) = op := by
  decide

/-- The three bits of a code, bit 2 first, put together again. -/
theorem ofBool_bits_append : ∀ op : CmdWord,
    BitVec.ofBool (op.getLsbD 2) ++ BitVec.ofBool (op.getLsbD 1) ++ BitVec.ofBool (op.getLsbD 0) = op := by
  decide

/-- The command of three bits is encoded as those bits. -/
theorem encodeBits_decode_append : ∀ b2 b1 b0 : Bool,
    encodeBits (decode (BitVec.ofBool b2 ++ BitVec.ofBool b1 ++ BitVec.ofBool b0)) = [b2, b1, b0] := by
  decide

/-- The laws of the eight commands as one: the sampling family is told from the code. -/
theorem isSampling_iff_encode (i : Instr) : Laws.SamplingCode.Statement i := by
  cases i with
  | nop => exact Laws.SamplingCode.nop
  | sample => exact Laws.SamplingCode.sample
  | accumulate => exact Laws.SamplingCode.accumulate
  | update => exact Laws.SamplingCode.update
  | readPos => exact Laws.SamplingCode.readPos
  | resetPos => exact Laws.SamplingCode.resetPos
  | pinAId => exact Laws.SamplingCode.pinAId
  | pinBId => exact Laws.SamplingCode.pinBId

theorem isSampling_decode_iff (op : CmdWord) :
    (decode op).isSampling = true ↔ op.getLsbD 2 = false ∧ op ≠ 0b000#3 := by
  simpa only [Laws.SamplingCode.Statement, encode_decode] using isSampling_iff_encode (decode op)

/-! ## Code sequences -/

/-- A sequence of three bits and more decodes as the command of those bits and what the rest decodes to. -/
theorem decodeStream_three_eq_ok_iff {b2 b1 b0 : Bool} {rest : List Bool} {is : List Instr} :
    decodeStream (b2 :: b1 :: b0 :: rest) = .ok is ↔ ∃ js, decodeStream rest = .ok js ∧
      decode (BitVec.ofBool b2 ++ BitVec.ofBool b1 ++ BitVec.ofBool b0) :: js = is := by
  rw [decodeStream]
  cases decodeStream rest <;> simp

theorem decodeStream_encodeStream (is : List Instr) : decodeStream (encodeStream is) = .ok is := by
  induction is with
  | nil => rfl
  | cons i is ih =>
    have command := (congrArg decode (ofBool_bits_append (encode i))).trans (decode_encode i)
    exact decodeStream_three_eq_ok_iff.mpr ⟨is, ih, congrArg (· :: is) command⟩

theorem encodeStream_of_decodeStream {bits : List Bool} {is : List Instr} (h : decodeStream bits = .ok is) :
    encodeStream is = bits := by
  induction bits using decodeStream.induct generalizing is with
  | case1 => cases h; rfl
  | case2 b2 b1 b0 rest _ _ ih | case3 b2 b1 b0 rest _ _ ih =>
    obtain ⟨js, hjs, rfl⟩ := decodeStream_three_eq_ok_iff.mp h
    rw [encodeStream, encodeBits_decode_append, ih hjs]
    rfl
  | case4 | case5 => cases h

/-- The decodable bit sequences are those of whole commands. -/
theorem exists_decodeStream_iff (bits : List Bool) :
    (∃ is, decodeStream bits = .ok is) ↔ bits.length % 3 = 0 := by
  induction bits using decodeStream.induct with
  | case1 => exact ⟨fun _ => rfl, fun _ => ⟨[], rfl⟩⟩
  | case2 b2 b1 b0 rest _ _ ih | case3 b2 b1 b0 rest _ _ ih =>
    have whole : (b2 :: b1 :: b0 :: rest).length % 3 = rest.length % 3 := Nat.add_mod_right _ 3
    rw [whole, ← ih]
    simp only [decodeStream_three_eq_ok_iff]
    exact ⟨fun ⟨_, js, hjs, _⟩ => ⟨js, hjs⟩, fun ⟨js, hjs⟩ => ⟨_, js, hjs, rfl⟩⟩
  | case4 | case5 => exact ⟨nofun, nofun⟩

/-- Settles O3: each direction by induction, three bits and one command at a time. -/
theorem commandStreamRoundTrip : Obligations.CommandStreamRoundTrip :=
  ⟨decodeStream_encodeStream, fun _ _ => encodeStream_of_decodeStream, exists_decodeStream_iff⟩

/-- Settles O1: the rows of the opcode map by definition, and the sampling family by its law per command. -/
theorem commandCodesDecode : Obligations.CommandCodesDecode :=
  ⟨rfl, rfl, rfl, rfl, rfl, rfl, rfl, rfl, isSampling_decode_iff⟩

/-- Settles O2: the two inverses. -/
theorem decodeEncodeAgree : Obligations.DecodeEncodeAgree :=
  ⟨fun i _ => decode_encode i, encode_decode⟩

/-! ## The code of a delta -/

theorem toInt_code (d : Delta) : d.code.toInt = d.toInt := by
  cases d <;> rfl

theorem ofCode_code (d : Delta) : Delta.ofCode d.code = some d := by
  cases d <;> rfl

/-- Settles O4: `10` is the code of no delta, since it would be read back. -/
theorem deltaCodes : Obligations.DeltaCodes := by
  refine ⟨rfl, rfl, rfl, rfl, fun d => ⟨fun unused => ?_, toInt_code d, ofCode_code d⟩⟩
  have readBack := ofCode_code d
  rw [unused] at readBack
  cases readBack

/-! ## The presented word -/

/-- A table word that decodes is the code of its command on the port. -/
theorem decode_of_decodeTableWord {nbits w : Nat} {i : Instr} (h : decodeTableWord nbits w = some i) :
    decode (BitVec.ofNat 3 (w % 2 ^ nbits)) = i := by
  unfold decodeTableWord decodeWide at h
  split at h
  · exact Option.some.inj h
  · cases h

theorem withFetchWord_of_decodes {nbits w : Nat} {i : Instr} (s : State) (h : decodeTableWord nbits w = some i) :
    s.withFetchWord nbits w = s.presentWord (w % 2 ^ nbits) := by
  simp only [State.withFetchWord, h]

theorem presentWord_stepKind (s : State) (w : Nat) : (s.presentWord w).stepKind = .command :=
  stepKind_eq_command_iff.mpr ⟨rfl, rfl, rfl⟩

/-- Settles O9: the block is constructed and neither reset nor losing power, so it performs the word's command. -/
theorem presentedWordIsPerformed : Obligations.PresentedWordIsPerformed := by
  intro s nbits w i h
  rw [withFetchWord_of_decodes s h, step_of_command (presentWord_stepKind s _)]
  exact congrArg (fun j => andThen (exec j _) _) (decode_of_decodeTableWord h)

end Sys2Proof.Machine
end

section
/-! SUPPORT. The result port (spec/30_encoding.md R53): what each command leaves on it, and how its words read. -/

namespace Sys2Proof.Machine

/-- What a command that completes leaves on the result port. -/
theorem exec_result_cases {i : Instr} {s t : State} (h : exec i s = .next t) :
    (i = .sample ∧ t.result = some (stepWord t.params.posWidth (sampleStep s))) ∨
    ((i = .accumulate ∨ i = .readPos) ∧ t.result = some t.position) ∨
    (i = .pinAId ∧ t.result = some (pinIdWord t.params.posWidth t.pinAId)) ∨
    (i = .pinBId ∧ t.result = some (pinIdWord t.params.posWidth t.pinBId)) ∨
    ((i = .nop ∨ i = .update ∨ i = .resetPos) ∧ t.result = none) := by
  cases i with
  | sample => cases h; exact .inl ⟨rfl, rfl⟩
  | accumulate =>
    obtain ⟨u, -, added⟩ := andThen_eq_next h
    cases added; exact .inr (.inl ⟨.inl rfl, rfl⟩)
  | readPos => cases h; exact .inr (.inl ⟨.inr rfl, rfl⟩)
  | pinAId => cases h; exact .inr (.inr (.inl ⟨rfl, rfl⟩))
  | pinBId => cases h; exact .inr (.inr (.inr (.inl ⟨rfl, rfl⟩)))
  | nop => cases h; exact .inr (.inr (.inr (.inr ⟨.inl rfl, rfl⟩)))
  | update =>
    obtain ⟨u, -, added⟩ := andThen_eq_next h
    cases added; exact .inr (.inr (.inr (.inr ⟨.inr (.inl rfl), rfl⟩)))
  | resetPos => cases h; exact .inr (.inr (.inr (.inr ⟨.inr (.inr rfl), rfl⟩)))

theorem map_toInt_of_stepWord {w : Nat} (hw : 2 ≤ w) {st : Delta} {r : Option (BitVec w)}
    (h : r = some (stepWord w st)) : r.map BitVec.toInt = some st.toInt := by
  rw [h, Option.map_some, toInt_stepWord hw]

theorem map_toNat_of_pinIdWord {k w : Nat} (fits : k ≤ w) {pin : BitVec k} {r : Option (BitVec w)}
    (h : r = some (pinIdWord w pin)) : r.map BitVec.toNat = some pin.toNat := by
  rw [h, Option.map_some, pinIdWord, BitVec.toNat_setWidth_of_le fits]

/-- Settles O38: by what the command left on the port. -/
theorem resultPortOfEveryCommand : Obligations.ResultPortOfEveryCommand := by
  intro i s t h
  rcases exec_result_cases h with ⟨rfl, r⟩ | ⟨rfl | rfl, r⟩ | ⟨rfl, r⟩ | ⟨rfl, r⟩ | ⟨rfl | rfl | rfl, r⟩
  case inl =>
    exact ⟨by simp [State.rvalid, r], fun _ => r, by simp, by simp, by simp,
      fun hw _ => map_toInt_of_stepWord hw r, by simp⟩
  case inr.inr.inl =>
    exact ⟨by simp [State.rvalid, r], by simp, by simp, fun _ => r, by simp, by simp,
      fun fits => ⟨fun _ => map_toNat_of_pinIdWord fits r, by simp⟩⟩
  case inr.inr.inr.inl =>
    exact ⟨by simp [State.rvalid, r], by simp, by simp, by simp, fun _ => r, by simp,
      fun fits => ⟨by simp, fun _ => map_toNat_of_pinIdWord fits r⟩⟩
  all_goals simp [State.rvalid, r]

/-- Settles O39: a word is fixed by what it reads as, and the three words read as +1, 0 and -1. -/
theorem sampleResultWords : Obligations.SampleResultWords := by
  intro w hw
  have word {st : Delta} {v : BitVec w} (reads : st.toInt = v.toInt) : stepWord w st = v :=
    BitVec.eq_of_toInt_eq ((toInt_stepWord hw st).trans reads)
  refine ⟨word ?_, word ?_, word ?_, toInt_stepWord hw⟩
  · exact (BitVec.toInt_one hw).symm
  · exact BitVec.toInt_zero.symm
  · rw [BitVec.toInt_allOnes, if_pos (by omega), toInt_minusOne]

end Sys2Proof.Machine
end

section
/-! SUPPORT. The sampling commands one by one (spec/40_sampling.md R56 to R60): SampleCore by its threshold cases, the three
commands by what the position add answers, and the samples that count nothing or cancel. -/

namespace Sys2Proof.Machine

/-! ## SampleCore and SAMPLE -/

/-- Settles O17: the three ways out of the threshold trigger; a delta moves a legal `subStep` by at most one. -/
theorem sampleCoreProcedure : Obligations.SampleCoreProcedure := by
  intro s history sum
  have shifted : sampledHistory s = history := sampledHistory_eq_append s
  have added : subStepSum s.subStep (lookedUp s) = sum := congrArg (fun h => subStepSum s.subStep (tableRead h)) shifted
  constructor
  · rw [sampleCore, sampleStep, added, shifted]
    rcases threshold_cases sum with ⟨up, emitted, stored⟩ | ⟨down, emitted, stored⟩ | ⟨lo, hi, emitted, stored⟩
    · rw [emitted, stored, if_pos up]
    · rw [emitted, stored, if_neg (by omega), if_pos down]
    · rw [emitted, stored, if_neg (by omega), if_neg (by omega)]
  · rintro ⟨lo, hi⟩
    have delta := delta_bounds (tableRead history)
    omega

theorem exec_sample_eq (s : State) : exec .sample s =
    .next ((sampleCore s).2.setResult (some (stepWord (sampleCore s).2.params.posWidth (sampleCore s).1))) :=
  rfl

/-- Settles O18: the result is the step's word, which reads as the step. -/
theorem sampleCommand : Obligations.SampleCommand :=
  ⟨rfl, fun _ => ⟨stepWord _ _, rfl, rfl, fun hw => toInt_stepWord hw _⟩⟩

/-! ## ACCUMULATE and UPDATE -/

theorem outOfRange_eq_false_iff_between {w : Nat} {r : Int} :
    outOfRange w r = false ↔ -(2 ^ (w - 1)) ≤ r ∧ r ≤ 2 ^ (w - 1) - 1 := by
  rw [outOfRange_eq_false_iff]
  omega

/-- What a register holds is in its range, at width 0 too. -/
theorem outOfRange_toInt {w : Nat} (p : BitVec w) : outOfRange w p.toInt = false := by
  have lo := BitVec.le_toInt p
  have hi := BitVec.toInt_le (x := p)
  exact outOfRange_eq_false_iff_between.mpr ⟨lo, by omega⟩

/-- A step of 0 leaves `position` as it is and faults under neither mode (spec/10_state.md R23). -/
theorem posAdd_zero (s : State) : posAdd .zero s = .next s := by
  rcases posAdd_cases .zero s with ⟨e, -⟩ | ⟨-, -, leaves⟩
  · rw [e, toInt_zero, add_zero, BitVec.ofInt_toInt]
  · rw [toInt_zero, add_zero, outOfRange_toInt] at leaves
    cases leaves

section
variable {s : State}

theorem sampleAndAdd_of_completes (completes : s.params.posOverflow = .wrap ∨
    outOfRange s.params.posWidth (s.position.toInt + (sampleStep s).toInt) = false) :
    sampleAndAdd s = .next s.sampledAndAdded := by
  rcases sampleAndAdd_cases s with ⟨e, -⟩ | ⟨-, fault, leaves⟩
  · exact e
  · rcases completes with wrap | fits
    · cases wrap.symm.trans fault
    · cases fits.symm.trans leaves

theorem sampleAndAdd_of_overflow (fault : s.params.posOverflow = .fault)
    (leaves : outOfRange s.params.posWidth (s.position.toInt + (sampleStep s).toInt) ≠ false) :
    sampleAndAdd s = .fault .positionOverflow := by
  rcases sampleAndAdd_cases s with ⟨-, wrap | fits⟩ | ⟨e, -⟩
  · cases fault.symm.trans wrap
  · exact absurd fits leaves
  · exact e

theorem sampleAndAdd_of_step_zero {u : State} (core : sampleCore s = (.zero, u)) : sampleAndAdd s = .next u := by
  rw [sampleAndAdd, core]
  exact posAdd_zero u

theorem exec_accumulate_eq : exec .accumulate s =
    andThen (sampleAndAdd s) fun t => .next (t.setResult (some t.position)) :=
  rfl

theorem exec_update_eq : exec .update s = andThen (sampleAndAdd s) fun t => .next (t.setResult none) :=
  rfl

theorem exec_accumulate_of_add {u : State} (add : sampleAndAdd s = .next u) :
    exec .accumulate s = .next (u.setResult (some u.position)) := by
  rw [exec_accumulate_eq, add, andThen_next]

theorem exec_update_of_add {u : State} (add : sampleAndAdd s = .next u) :
    exec .update s = .next (u.setResult none) := by
  rw [exec_update_eq, add, andThen_next]

theorem exec_readPos_of_accumulate {t : State} (h : exec .accumulate s = .next t) : exec .readPos t = .next t := by
  obtain ⟨u, -, added⟩ := andThen_eq_next h
  cases added
  rfl

end

/-- Settles O19: by what the position add answers. -/
theorem accumulateCommand : Obligations.AccumulateCommand := by
  refine ⟨rfl, fun s => ⟨fun completes => ?_, fun fault outside => ?_, fun zero => ?_,
    fun _ => exec_readPos_of_accumulate⟩⟩
  · exact exec_accumulate_of_add
      (sampleAndAdd_of_completes (completes.imp_right outOfRange_eq_false_iff_between.mpr))
  · have overflow := sampleAndAdd_of_overflow fault (mt outOfRange_eq_false_iff_between.mp outside)
    rw [exec_accumulate_eq, overflow, andThen_fault]
  · exact exec_accumulate_of_add (sampleAndAdd_of_step_zero (Prod.ext zero rfl))

/-- Settles O20: by what the position add answers, which is ACCUMULATE's answer before its result. -/
theorem updateCommand : Obligations.UpdateCommand := by
  refine ⟨rfl, fun s => ⟨fun completes => ?_, fun fault outside => ?_⟩, fun s t h => ?_⟩
  · exact exec_update_of_add
      (sampleAndAdd_of_completes (completes.imp_right outOfRange_eq_false_iff_between.mpr))
  · have overflow := sampleAndAdd_of_overflow fault (mt outOfRange_eq_false_iff_between.mp outside)
    rw [exec_update_eq, overflow, andThen_fault]
  · obtain ⟨u, add, added⟩ := andThen_eq_next h
    cases added
    rw [exec_update_of_add add]

/-! ## Samples that count nothing -/

/-- A sum inside the thresholds is kept, and nothing is emitted. -/
theorem keptSubStep_of_inside {v : SubStep} {d : Delta} (lo : -3 ≤ v.toInt + d.toInt) (hi : v.toInt + d.toInt ≤ 3) :
    emittedStep (subStepSum v d) = .zero ∧ (keptSubStep d v).toInt = v.toInt + d.toInt :=
  threshold_of_inside lo hi

/-- A sample that looks up 0 changes only the history (spec/40_sampling.md R57, first two cases). -/
theorem sampleCore_of_lookedUp_zero {s : State} (legal : s.subStep.Legal) (zero : lookedUp s = .zero) :
    sampleCore s = (.zero, s.withHistory (s.currentSample ++ s.newSample)) := by
  obtain ⟨lo, hi⟩ := legal
  obtain ⟨emitted, kept⟩ := keptSubStep_of_inside (v := s.subStep) (d := .zero)
    (by rwa [toInt_zero, add_zero]) (by rwa [toInt_zero, add_zero])
  have stored : storedSubStep (subStepSum s.subStep .zero) = s.subStep :=
    BitVec.eq_of_toInt_eq (kept.trans (add_zero _))
  rw [sampleCore, sampleStep, zero, emitted, stored, sampledHistory_eq_append]

/-- Settles O24: the table holds 0 for both classes, and a step of 0 is added under either mode. -/
theorem uncountedSamplesChangeNothing : Obligations.UncountedSamplesChangeNothing := by
  intro s legal uncounted
  have zero : lookedUp s = .zero :=
    (congrArg tableRead (sampledHistory_eq_append s)).trans (tableRead_of_even_change _ _ uncounted)
  have core := sampleCore_of_lookedUp_zero legal zero
  have add := sampleAndAdd_of_step_zero core
  exact ⟨core, exec_accumulate_of_add add, exec_update_of_add add⟩

/-- A sampling command whose SampleCore emits 0 completes, with its result as the only other write. -/
theorem exec_sampling_of_step_zero {i : Instr} (sampling : i.isSampling = true) {s u : State}
    (core : sampleCore s = (.zero, u)) : ∃ r, exec i s = .next (u.setResult r) := by
  cases i with
  | sample => exact ⟨some (stepWord _ .zero), by rw [exec_sample_eq, core]⟩
  | accumulate => exact ⟨_, exec_accumulate_of_add (sampleAndAdd_of_step_zero core)⟩
  | update => exact ⟨_, exec_update_of_add (sampleAndAdd_of_step_zero core)⟩
  | nop | readPos | resetPos | pinAId | pinBId => cases sampling

/-- `t` holds the count and the current sample of `s`. The positions are compared as integers, since their types name the
states' widths. -/
structure State.SameCount (s t : State) : Prop where
  subStep : t.subStep = s.subStep
  position : t.position.toInt = s.position.toInt
  currentSample : t.currentSample = s.currentSample

theorem State.SameCount.trans {s t u : State} (hst : s.SameCount t) (htu : t.SameCount u) : s.SameCount u :=
  ⟨htu.subStep.trans hst.subStep, htu.position.trans hst.position, htu.currentSample.trans hst.currentSample⟩

theorem tableRead_held : ∀ p : Sample, tableRead (p ++ p) = .zero := by
  decide

theorem exec_heldSample {i : Instr} (sampling : i.isSampling = true) {s : State} (legal : s.subStep.Legal) :
    ∃ t, exec i (s.offerSample i s.currentSample) = .next t ∧ s.SameCount t := by
  have zero : lookedUp (s.offerSample i s.currentSample) = .zero :=
    (lookedUp_offerSample s i _).trans (tableRead_held _)
  obtain ⟨r, hr⟩ := exec_sampling_of_step_zero sampling
    (sampleCore_of_lookedUp_zero (s := s.offerSample i s.currentSample) legal zero)
  exact ⟨_, hr, rfl, rfl, (append_currentSample _ _).trans (levels_append _)⟩

/-- Settles O25: by induction on the commands, each of which sees the held sample. -/
theorem repeatedNoChangeNeverCounts : Obligations.RepeatedNoChangeNeverCounts := by
  intro is
  induction is with
  | nil => exact fun s _ _ => ⟨s, rfl, rfl, rfl, rfl⟩
  | cons i rest ih =>
    intro s sampling legal
    obtain ⟨here, later⟩ := List.forall_mem_cons.mp sampling
    obtain ⟨u, hu, same⟩ := exec_heldSample here legal
    obtain ⟨t, ht, subStep, position, current⟩ := ih u later (same.subStep ▸ legal)
    rw [same.currentSample] at ht
    have count : s.SameCount t := same.trans ⟨subStep, position, current⟩
    exact ⟨t, (performs_cons_of_next hu _).trans ht, count.subStep, count.position, count.currentSample⟩

/-! ## A sample and the return from it -/

/-- A SAMPLE that sees `p` keeps what the threshold trigger keeps of its sum, at every width. -/
theorem exec_sample_keeps (s : State) (p : Sample) :
    ∃ u, exec .sample (s.offerSample .sample p) = .next u ∧ u.currentSample = p ∧
      u.subStep = keptSubStep (tableRead (s.currentSample ++ p)) s.subStep ∧ u.position.toInt = s.position.toInt :=
  ⟨_, rfl, sampledHistory_offerSample_current s .sample p,
    congrArg storedSubStep (subStepSum_offerSample s .sample p), rfl⟩

/-- Two opposite deltas cancel where neither sum passes a threshold. -/
theorem keptSubStep_opposite {v : SubStep} (lo : -2 ≤ v.toInt) (hi : v.toInt ≤ 2) {d e : Delta}
    (opposite : e.toInt = -d.toInt) : keptSubStep e (keptSubStep d v) = v := by
  have delta := delta_bounds d
  obtain ⟨-, there⟩ := keptSubStep_of_inside (v := v) (d := d) (by omega) (by omega)
  obtain ⟨-, back⟩ := keptSubStep_of_inside (v := keptSubStep d v) (d := e) (by omega) (by omega)
  exact BitVec.eq_of_toInt_eq (by omega)

/-- Any two levels are those of a sample. -/
theorem exists_sample_of_levels : ∀ x y : Bool, ∃ p : Sample, p.getLsbD 1 = x ∧ p.getLsbD 0 = y := by
  decide

/-- Settles O26: the return looks up the opposite delta. -/
theorem returnedSampleCancels : Obligations.ReturnedSampleCancels := by
  intro s x y lo hi
  obtain ⟨p, rfl, rfl⟩ := exists_sample_of_levels x y
  obtain ⟨u, hu, currentU, keptU, positionU⟩ := exec_sample_keeps s p
  obtain ⟨t, ht, currentT, keptT, positionT⟩ := exec_sample_keeps u s.currentSample
  rw [currentU, keptU, keptSubStep_opposite lo hi (tableRead_swap p s.currentSample)] at keptT
  exact ⟨t, (performs_cons_of_next hu _).trans (performs_cons_of_next ht []), keptT, currentT,
    positionT.trans positionU⟩

/-! ## The first sample after reset -/

/-- The idle seed of reset stands as the previous sample (1,1) (spec/10_state.md R19). -/
theorem sampledHistory_of_seed {s : State} (seed : s.history = 0b0011#4) {p : Sample} (new : s.newSample = p) :
    sampledHistory s = 0b11#2 ++ p := by
  rw [sampledHistory_eq_append, new, State.currentSample, seed]
  rfl

/-- Settles O27: the index is the seed's sample followed by the new one, and the table is read there. -/
theorem firstSampleAfterReset : Obligations.FirstSampleAfterReset := by
  intro s seed
  have reads {p : Sample} (new : s.newSample = p) :
      sampledHistory s = 0b11#2 ++ p ∧ lookedUp s = tableRead (0b11#2 ++ p) :=
    ⟨sampledHistory_of_seed seed new, congrArg tableRead (sampledHistory_of_seed seed new)⟩
  exact ⟨reads, reads, reads, reads⟩

end Sys2Proof.Machine
end

section
/-! SUPPORT. READ_POS and RESET_POS (spec/41_position.md R61, R62): what each writes, and two runs of one command sequence
whose positions differ by a constant. -/

namespace Sys2Proof.Machine

/-! ## Two states that differ in the count -/

/-- Registers that lie `k` apart modulo 2^w lie `k` apart after the same add, whatever each wrap loses. -/
theorem dvd_ofInt_add_sub {w : Nat} {a b d k : Int} (apart : (2 ^ w : Int) ∣ a - (b + k)) :
    (2 ^ w : Int) ∣ (BitVec.ofInt w (a + d)).toInt - ((BitVec.ofInt w (b + d)).toInt + k) := by
  have lost := dvd_sub (dvd_toInt_ofInt_sub w (a + d)) (dvd_toInt_ofInt_sub w (b + d))
  have split : (BitVec.ofInt w (a + d)).toInt - ((BitVec.ofInt w (b + d)).toInt + k) =
      ((BitVec.ofInt w (a + d)).toInt - (a + d)) - ((BitVec.ofInt w (b + d)).toInt - (b + d)) + (a - (b + k)) := by
    ring
  exact split ▸ dvd_add lost apart

/-- Another `position` and result port in an otherwise equal state. -/
abbrev State.withPosition (s : State) (p : BitVec s.params.posWidth) (r : Option (BitVec s.params.posWidth)) : State :=
  (s.setPosition p).setResult r

/-- `u` is `s` with `position` lower by `k`, modulo 2^POS_WIDTH, and with any result port. -/
def State.LowerBy (k : Int) (s u : State) : Prop :=
  ∃ p r, u = s.withPosition p r ∧ (2 ^ s.params.posWidth : Int) ∣ s.position.toInt - (p.toInt + k)

theorem lowerBy_resetPos (s : State) :
    s.LowerBy s.position.toInt (s.withPosition (positionReset s.params.posWidth) none) := by
  refine ⟨_, _, rfl, ?_⟩
  rw [positionReset, BitVec.toInt_zero, zero_add, sub_self]
  exact dvd_zero _

section
variable {k : Int} {s u : State}

theorem State.LowerBy.params (low : s.LowerBy k u) : u.params = s.params := by
  obtain ⟨p, r, rfl, -⟩ := low
  rfl

theorem State.LowerBy.setResult (low : s.LowerBy k u) (r : Option (BitVec s.params.posWidth))
    (r' : Option (BitVec u.params.posWidth)) : (s.setResult r).LowerBy k (u.setResult r') := by
  obtain ⟨p, _, rfl, lower⟩ := low
  exact ⟨p, r', rfl, lower⟩

theorem State.LowerBy.offer (low : s.LowerBy k u) (i : Instr) (x y : Bool) :
    (s.offer i x y).LowerBy k (u.offer i x y) := by
  obtain ⟨p, r, rfl, lower⟩ := low
  exact ⟨p, r, rfl, lower⟩

/-- SampleCore reads neither `position` nor the result port. -/
theorem State.LowerBy.sampleCore (low : s.LowerBy k u) :
    (sampleCore s).2.LowerBy k (sampleCore u).2 := by
  obtain ⟨p, r, rfl, lower⟩ := low
  exact ⟨p, r, rfl, lower⟩

/-- Both adds take the same step. -/
theorem State.LowerBy.sampledAndAdded (low : s.LowerBy k u) :
    s.sampledAndAdded.LowerBy k u.sampledAndAdded := by
  obtain ⟨p, r, rfl, lower⟩ := low
  exact ⟨(s.withPosition p r).sampledAndAdded.position, r, rfl, dvd_ofInt_add_sub lower⟩

/-- Under `wrap`, a command other than RESET_POS completes from both states and keeps their distance. -/
theorem exec_lowerBy {i : Instr} (noClear : i ≠ .resetPos) (wrap : s.params.posOverflow = .wrap)
    (low : s.LowerBy k u) : ∃ t v, exec i s = .next t ∧ exec i u = .next v ∧ t.LowerBy k v := by
  have wrapU : u.params.posOverflow = .wrap := low.params ▸ wrap
  cases i with
  | nop | readPos | pinAId | pinBId => exact ⟨_, _, rfl, rfl, low.setResult _ _⟩
  | sample => exact ⟨_, _, rfl, rfl, low.sampleCore.setResult _ _⟩
  | accumulate =>
    exact ⟨_, _, exec_accumulate_of_wrap wrap, exec_accumulate_of_wrap wrapU, low.sampledAndAdded.setResult _ _⟩
  | update => exact ⟨_, _, exec_update_of_wrap wrap, exec_update_of_wrap wrapU, low.sampledAndAdded.setResult _ _⟩
  | resetPos => exact absurd rfl noClear

theorem performs_lowerBy {cs : List (Instr × Bool × Bool)} (noClear : ∀ c ∈ cs, c.1 ≠ .resetPos)
    (wrap : s.params.posOverflow = .wrap) (low : s.LowerBy k u) :
    ∃ t v, performs cs s = .next t ∧ performs cs u = .next v ∧ t.LowerBy k v := by
  induction cs generalizing s u with
  | nil => exact ⟨s, u, rfl, rfl, low⟩
  | cons c rest ih =>
    obtain ⟨i, x, y⟩ := c
    obtain ⟨here, later⟩ := List.forall_mem_cons.mp noClear
    obtain ⟨s', u', hs, hu, low'⟩ := exec_lowerBy here (s := s.offer i x y) wrap (low.offer i x y)
    have params : s'.params = s.params := (exec_sameBinding hs).params
    obtain ⟨t, v, ht, hv, lowEnd⟩ := ih later (params ▸ wrap) low'
    exact ⟨t, v, (performs_cons_of_next hs rest).trans ht, (performs_cons_of_next hu rest).trans hv, lowEnd⟩

end

/-- Settles O33: RESET_POS lowers `position` by what it held, and every later command keeps the distance. -/
theorem resetPosOnlyShiftsTheCount : Obligations.ResetPosOnlyShiftsTheCount := by
  intro cs s noClear wrap
  obtain ⟨t, u, ht, hu, low⟩ := performs_lowerBy noClear wrap (lowerBy_resetPos s)
  have width : (2 ^ t.params.posWidth : Int) = 2 ^ s.params.posWidth := by rw [(performs_sameBinding ht).params]
  obtain ⟨p, r, rfl, lower⟩ := low
  exact ⟨t, _, ht, hu, rfl, rfl, width ▸ lower⟩

/-! ## RESET_POS and READ_POS -/

theorem exec_position_within_one_step {i : Instr} {s t : State} (noClear : i ≠ .resetPos) (h : exec i s = .next t) :
    ∃ d : Delta, (2 ^ s.params.posWidth : Int) ∣ t.position.toInt - (s.position.toInt + d.toInt) := by
  obtain ⟨added, -, kept⟩ := onlyThreeCommandsWritePosition i s t h
  by_cases add : i = .accumulate ∨ i = .update
  · exact ⟨_, (added add).1⟩
  · obtain ⟨noAccumulate, noUpdate⟩ := not_or.mp add
    exact ⟨.zero, by simp [kept noAccumulate noUpdate noClear]⟩

/-- Settles O32: the clear is the only write, SampleCore does not read `position`, and only an add moves it otherwise. -/
theorem resetPosCommand : Obligations.ResetPosCommand := by
  refine ⟨rfl, fun _ => rfl, fun s t h => ?_, fun s t h i x y => ?_, fun _ _ _ => exec_position_within_one_step⟩
  · cases h; rfl
  · cases h; exact ⟨rfl, rfl⟩

/-- Settles O31: READ_POS drives `position`, which ACCUMULATE already has as its result and RESET_POS leaves at 0. -/
theorem readPosCommand : Obligations.ReadPosCommand := by
  refine ⟨rfl, fun _ => rfl, fun s t h => ?_, fun _ _ => exec_readPos_of_accumulate, fun s t h => ?_⟩
  · cases h; rfl
  · cases h; rfl

end Sys2Proof.Machine
end

section
/-! SUPPORT. The identity and idle commands (spec/42_identity_and_idle.md R63 to R65): how an identifier reads on the result
port, and that no command reads what the port showed before it. -/

namespace Sys2Proof.Machine

/-! ## The identifiers -/

theorem toNat_pinIdWord {k w : Nat} (fits : k ≤ w) (pin : BitVec k) : (pinIdWord w pin).toNat = pin.toNat :=
  BitVec.toNat_setWidth_of_le fits

/-- Settles O35: PIN_A_ID drives the zero-extended identifier, and every command keeps the binding. -/
theorem pinAIdCommand : Obligations.PinAIdCommand :=
  ⟨rfl, fun _ => ⟨pinIdWord _ _, rfl, rfl, fun fits => toNat_pinIdWord fits _⟩,
    fun _ _ _ h => (exec_sameBinding h).pinAId⟩

/-- Settles O36: PIN_B_ID drives the zero-extended identifier, and every command keeps the binding. -/
theorem pinBIdCommand : Obligations.PinBIdCommand :=
  ⟨rfl, fun _ => ⟨pinIdWord _ _, rfl, rfl, fun fits => toNat_pinIdWord fits _⟩,
    fun _ _ _ h => (exec_sameBinding h).pinBId⟩

/-! ## NOP -/

/-- The add after SampleCore reads no result port, so a continuation that drives the port anew answers alike. -/
theorem andThen_sampleAndAdd_setResult (s : State) (r : Option (BitVec s.params.posWidth)) {f : State → Answer}
    (drives : ∀ (u : State) (q : Option (BitVec u.params.posWidth)), f (u.setResult q) = f u) :
    andThen (sampleAndAdd (s.setResult r)) f = andThen (sampleAndAdd s) f := by
  rcases sampleAndAdd_cases s with ⟨e, completes⟩ | ⟨e, fault, leaves⟩
  · have other : sampleAndAdd (s.setResult r) = .next (s.sampledAndAdded.setResult r) :=
      sampleAndAdd_of_completes (s := s.setResult r) completes
    rw [e, other]
    exact drives s.sampledAndAdded r
  · have other : sampleAndAdd (s.setResult r) = .fault .positionOverflow :=
      sampleAndAdd_of_overflow (s := s.setResult r) fault (ne_false_of_eq_true leaves)
    rw [e, other]

/-- No command reads the result port, and every command drives it. -/
theorem exec_setResult (i : Instr) (s : State) (r : Option (BitVec s.params.posWidth)) :
    exec i (s.setResult r) = exec i s := by
  cases i with
  | nop | sample | readPos | resetPos | pinAId | pinBId => rfl
  | accumulate | update => exact andThen_sampleAndAdd_setResult s r fun _ _ => rfl

/-- Settles O37: NOP writes only the result port, which the command after it does not read. -/
theorem nopCommand : Obligations.NopCommand := by
  refine ⟨rfl, fun _ => rfl, fun s t h i x y _ => ?_⟩
  cases h
  exact exec_setResult i (s.offer i x y) none

end Sys2Proof.Machine
end

section
/-! SUPPORT. Exceptions (spec/60_exceptions.md R66, R67, R76, R78): the one fault of a command, which step a loss of power is,
and when the step of one decoder keeps a platform's pins exclusive. -/

namespace Sys2Proof.Machine

/-! ## The fault of a command -/

/-- The position add is the only source of a fault, whatever result is driven after it (spec/60_exceptions.md R67). -/
theorem andThen_sampleAndAdd_eq_fault_iff {s : State} {f : State → State} {r : Fault} :
    andThen (sampleAndAdd s) (fun t => .next (f t)) = .fault r ↔
      r = .positionOverflow ∧ s.params.posOverflow = .fault ∧
        outOfRange s.params.posWidth (s.position.toInt + (sampleStep s).toInt) = true := by
  rcases sampleAndAdd_cases s with ⟨e, completes⟩ | ⟨e, fault, leaves⟩
  · rw [e, andThen_next]
    refine ⟨nofun, fun ⟨_, fault, leaves⟩ => ?_⟩
    rcases completes with wrap | fits
    · cases wrap.symm.trans fault
    · cases fits.symm.trans leaves
  · rw [e, andThen_fault, Host.Outcome.fault.injEq]
    exact ⟨fun h => ⟨h.symm, fault, leaves⟩, fun h => h.1.symm⟩

theorem sampleCore_fst (s : State) : (sampleCore s).1 = sampleStep s :=
  rfl

/-- Settles O22: ACCUMULATE and UPDATE fault as the position add does, and the six commands that do not add complete. -/
theorem onlyFaultIsPositionOverflow : Obligations.OnlyFaultIsPositionOverflow := by
  intro i s r
  rw [← outOfRange_eq_true_iff, sampleCore_fst]
  cases i with
  | accumulate => rw [exec_accumulate_eq, andThen_sampleAndAdd_eq_fault_iff]; simp
  | update => rw [exec_update_eq, andThen_sampleAndAdd_eq_fault_iff]; simp
  | nop | sample | readPos | resetPos | pinAId | pinBId => exact ⟨nofun, fun ⟨_, _, add, _⟩ => by simp at add⟩

/-- Settles O23: the one fault needs the other overflow mode, and no command is refused. -/
theorem everyCommandCompletesUnderWrap : Obligations.EveryCommandCompletesUnderWrap := by
  refine ⟨fun i s wrap => ?_, exec_not_refused⟩
  cases h : exec i s with
  | next t => exact ⟨t, rfl⟩
  | fault r =>
    obtain ⟨-, fault, -⟩ := (onlyFaultIsPositionOverflow i s r).mp h
    cases wrap.symm.trans fault
  | refused r => exact absurd h (exec_not_refused i s r)

/-! ## Loss of power -/

/-- A presented loss of power wins over reset and over a command (log 7). -/
theorem step_of_powerLoss {s : State} (lost : s.port.powerLoss = true) : step s = .next s.losePower.takeInputs := by
  simp only [step, stepKind_eq_powerLoss_iff.mpr lost]

/-- Settles O14: the registers of `losePower` are the free values. -/
theorem powerLossLosesState : Obligations.PowerLossLosesState :=
  fun _ => step_of_powerLoss

/-! ## A platform's step -/

theorem not_sharesPin_of_pins_subset {e d t : State} (sub : t.pins ⊆ d.pins) (apart : sharesPin e d = false) :
    sharesPin e t = false := by
  rw [Bool.eq_false_iff, Ne, sharesPin_eq_true_iff] at apart ⊢
  rintro ⟨pin, pinE, pinT⟩
  exact apart ⟨pin, pinE, sub pinT⟩

theorem replaceAt_eq_set (ds : List State) (k : Nat) (t : State) : replaceAt ds k t = ds.set k t := by
  induction ds generalizing k with
  | nil => rfl
  | cons d rest ih => cases k <;> simp [replaceAt, ih]

theorem mem_replaceAt {ds : List State} {k : Nat} {e t : State} (h : e ∈ replaceAt ds k t) : e ∈ ds ∨ e = t :=
  List.mem_or_eq_of_mem_set (replaceAt_eq_set ds k t ▸ h)

theorem exclusivePins_cons_iff {d : State} {rest : List State} :
    exclusivePins (d :: rest) = true ↔ (∀ e ∈ rest, sharesPin d e = false) ∧ exclusivePins rest = true := by
  simp [exclusivePins]

/-- A decoder may be replaced by one that holds no new pin. -/
theorem exclusivePins_replaceAt {ds : List State} {k : Nat} {d t : State} (exclusive : exclusivePins ds = true)
    (hd : ds[k]? = some d) (sub : t.pins ⊆ d.pins) : exclusivePins (replaceAt ds k t) = true := by
  induction ds generalizing k with
  | nil => cases hd
  | cons e rest ih =>
    obtain ⟨apart, tail⟩ := exclusivePins_cons_iff.mp exclusive
    cases k with
    | zero =>
      obtain rfl : e = d := Option.some.inj hd
      refine exclusivePins_cons_iff.mpr ⟨fun f hf => ?_, tail⟩
      rw [sharesPin_comm]
      exact not_sharesPin_of_pins_subset sub ((sharesPin_comm f e).trans (apart f hf))
    | succ k =>
      refine exclusivePins_cons_iff.mpr ⟨fun f hf => ?_, ih tail hd⟩
      rcases mem_replaceAt hf with old | rfl
      · exact apart f old
      · exact not_sharesPin_of_pins_subset sub (apart d (List.mem_of_getElem? hd))

theorem step_pins_subset_of_not_reset {d t : State} (h : step d = .next t) (noReset : d.stepKind ≠ .reset) :
    t.pins ⊆ d.pins := by
  rcases step_pins_of_not_reset h noReset with kept | dropped
  · rw [kept]
    exact List.Subset.refl _
  · rw [dropped]
    exact List.nil_subset _

theorem platformStep_of_next_exclusive {ds : List State} {k : Nat} {d t : State} (exclusive : exclusivePins ds = true)
    (hd : ds[k]? = some d) (ht : step d = .next t) (next : exclusivePins (replaceAt ds k t) = true) :
    platformStep ds k = .next (replaceAt ds k t) := by
  simp [platformStep, exclusive, hd, ht, asPlatform, next]

/-- Settles O45: only a reset binds pins, so every other step passes the test after it, and only the stepped decoder is
replaced. -/
theorem instancesAreIndependent : Obligations.InstancesAreIndependent := by
  intro ds k d t exclusive hd ht binding
  have next : exclusivePins (replaceAt ds k t) = true :=
    binding.elim (fun noReset => exclusivePins_replaceAt exclusive hd (step_pins_subset_of_not_reset ht noReset)) id
  obtain ⟨hk, -⟩ := List.getElem?_eq_some_iff.mp hd
  exact ⟨replaceAt ds k t, platformStep_of_next_exclusive exclusive hd ht next, replaceAt_length ds k t,
    replaceAt_get_self t hk, fun j hj => replaceAt_get_other ds t hj⟩

end Sys2Proof.Machine
end

section
/-! SUPPORT. Reset and hazards (spec/70_reset_and_hazards.md R79, R80): which step is the stuck one, and what the reset step
and the stuck step answer. -/

namespace Sys2Proof.Machine

theorem stepKind_eq_stuck_iff {s : State} :
    s.stepKind = .stuck ↔ s.port.powerLoss = false ∧ s.port.rst = false ∧ s.constructed = false := by
  unfold State.stepKind
  cases s.port.powerLoss <;> cases s.port.rst <;> cases s.constructed <;> decide

theorem step_of_stuck {s : State} (h : s.stepKind = .stuck) : step s = .fault .commandBeforeReset := by
  simp only [step, h]

/-- The reset event does not ask whether the block is constructed. -/
theorem step_of_reset {s : State} (h : s.stepKind = .reset) :
    step s = .next (s.construct s.port.idA s.port.idB).takeInputs := by
  simp only [step, h]

/-- Settles O13: with neither power loss nor reset presented, an unconstructed block is stuck, and the reset step
constructs it. -/
theorem commandBeforeResetIsStuck : Obligations.CommandBeforeResetIsStuck := by
  refine ⟨fun s awaiting power noReset => ?_, fun s _ power reset => ?_⟩
  · exact step_of_stuck (stepKind_eq_stuck_iff.mpr ⟨power, noReset, awaiting⟩)
  · exact ⟨_, step_of_reset (stepKind_eq_reset_iff.mpr ⟨power, reset⟩), rfl⟩

end Sys2Proof.Machine
end

section
/-! SUPPORT. The reset step (spec/70_reset_and_hazards.md R79): what the reset event leaves in every register. -/

namespace Sys2Proof.Machine

/-- The reset event with the reset values of spec/10_state.md written out; what it does not name it leaves, the port and
the feed among it. -/
theorem construct_eq_resetValues (s : State) (ida idb : BitVec s.params.pinIdWidth) :
    s.construct ida idb =
      { s with
        pinAId := ida, pinBId := idb, history := 0b0011#4, subStep := 0#4
        position := 0#s.params.posWidth, puA := true, puB := true, result := none, constructed := true } := rfl

/-- Settles O10: with power kept and reset presented the step is the reset event, whatever else is on the port; it takes
the identifiers presented with it. -/
theorem resetStep : Obligations.ResetStep := by
  intro s power reset
  have isReset : s.stepKind = .reset := stepKind_eq_reset_iff.mpr ⟨power, reset⟩
  rw [step_of_reset isReset, construct_eq_resetValues]

end Sys2Proof.Machine
end
